-- ==== Sys2Proof/Word.lean ====
section
/-! DEFINITION. The operation word: one 32-bit number per operation of a run (30_encoding.md R80). -/
namespace Sys2Proof

/-- An operation word. It is a number and has no byte order (30_encoding.md R80, 20_memory.md R64). -/
abbrev OpWord := BitVec 32

end Sys2Proof
end

