-- ==== Sys2Proof/Syntax.lean ====
section
/-! DEFINITION. The operations: one constructor per row of spec/opcode_table.json (30_encoding.md R83), the agents
that take them (00_scope.md R7), and what a decoder answers (R84). -/
namespace Sys2Proof

/-- The five agents (00_scope.md R7). -/
inductive Agent where
  /-- the Pulse Generator -/
  | pg
  /-- the Sweep Controller -/
  | sc
  /-- the startup and shutdown hooks and the read-back surface -/
  | host
  /-- the hardware timer facility -/
  | hwt
  /-- the software timer facility's time base -/
  | swt
  deriving DecidableEq, Repr

/-- The operations of 30_encoding.md R83; INIT is two rows (`INIT_1`, `INIT_0`). -/
inductive Instr where
  /-- RESET, 44_lifecycle.md R181 -/
  | reset
  /-- INIT 1, R182 -/
  | init1
  /-- INIT 0, R183 -/
  | init0
  /-- SD.DISARM, R184 -/
  | sdDisarm
  /-- SD.CLKOFF, R185 -/
  | sdClkoff
  /-- SD.MASK, R186 -/
  | sdMask
  /-- PG.ACK, 40_pulse_generator.md R101 -/
  | pgAck
  /-- PG.REARM, R102 -/
  | pgRearm
  /-- PG.CHK, R103 -/
  | pgChk
  /-- PG.OUT, R104 -/
  | pgOut
  /-- SC.UPD, 41_sweep_controller.md R121 -/
  | scUpd
  /-- SC.BND, R122 -/
  | scBnd
  /-- SC.ARM, R123 -/
  | scArm
  /-- ADV n, 43_timer_facilities.md R161 -/
  | adv (n : Nat)
  /-- MSADV n, R165 -/
  | msadv (n : Nat)
  /-- RDDUTY, 42_readback.md R141 -/
  | rdduty
  /-- RB.OPEN, R142 -/
  | rbOpen
  /-- RB.READ, R143 -/
  | rbRead
  /-- RB.WRITE len, R144 -/
  | rbWrite (len : Nat)
  deriving DecidableEq, Repr

/-- Why a word is illegal: the four classes of 30_encoding.md R84. -/
inductive Illegal where
  /-- an `op` value outside the eighteen -/
  | unknownOp
  /-- a no-operand operation with `imm` not 0 -/
  | operandNotZero
  /-- INIT with `imm[23:1]` not 0 -/
  | initOperand
  /-- ADV 0 or MSADV 0 -/
  | zeroAdvance
  deriving DecidableEq, Repr

/-- The decoder's answer: one of the operations with its operand, or the verdict illegal (30_encoding.md R84). -/
inductive Decoded where
  | op (i : Instr)
  | illegal (why : Illegal)
  deriving DecidableEq, Repr

end Sys2Proof
end

