-- ==== Sys2Proof/WellFormed.lean ====
section
/-! DEFINITION. Which operations the encoding admits: the operand constraints of 30_encoding.md R82 and R83. -/
namespace Sys2Proof

/-- Operands are 24-bit unsigned numbers; an advance is by at least 1 (30_encoding.md R82, R84). -/
def Instr.wellFormed : Instr → Bool
  | .adv n => decide (1 ≤ n) && decide (n < 2 ^ 24)
  | .msadv n => decide (1 ≤ n) && decide (n < 2 ^ 24)
  | .rbWrite len => decide (len < 2 ^ 24)
  | .reset | .init1 | .init0 | .sdDisarm | .sdClkoff | .sdMask => true
  | .pgAck | .pgRearm | .pgChk | .pgOut => true
  | .scUpd | .scBnd | .scArm => true
  | .rdduty | .rbOpen | .rbRead => true

end Sys2Proof
end

