-- ==== Sys2Proof/Decode.lean ====
section
/-! DEFINITION. Reading and writing operation words (30_encoding.md R80 to R86): the decoder, total on every word
and rejecting by the class of R84; the encoder; the opcode table's match and mask of every row. -/
namespace Sys2Proof

/-- `op`, bits 31:24 (R80). -/
def opField (w : OpWord) : Nat := (w.extractLsb' 24 8).toNat

/-- `imm`, bits 23:0, zero-extended (R80, R82). -/
def immField (w : OpWord) : Nat := (w.extractLsb' 0 24).toNat

/-- An operation that takes no operand requires `imm = 0` (R82, R84). -/
def decodeNoOperand (i : Instr) (imm : Nat) : Decoded :=
  if imm = 0 then .op i else .illegal .operandNotZero

/-- `INIT c`: `c = imm[0]`, `imm[23:1]` must be 0 (R82). -/
def decodeInit (imm : Nat) : Decoded :=
  if imm = 1 then .op .init1 else if imm = 0 then .op .init0 else .illegal .initOperand

/-- `ADV n` and `MSADV n` require `n >= 1` (R82, R84). -/
def decodeAdvance (i : Instr) (n : Nat) : Decoded :=
  if n = 0 then .illegal .zeroAdvance else .op i

/-- The opcode map of R83 on the two fields of a word. -/
def decodeFields (op imm : Nat) : Decoded :=
  match op with
  | 0x01 => decodeNoOperand .reset imm
  | 0x02 => decodeInit imm
  | 0x03 => decodeNoOperand .sdDisarm imm
  | 0x04 => decodeNoOperand .sdClkoff imm
  | 0x05 => decodeNoOperand .sdMask imm
  | 0x10 => decodeNoOperand .pgAck imm
  | 0x11 => decodeNoOperand .pgRearm imm
  | 0x12 => decodeNoOperand .pgChk imm
  | 0x13 => decodeNoOperand .pgOut imm
  | 0x20 => decodeNoOperand .scUpd imm
  | 0x21 => decodeNoOperand .scBnd imm
  | 0x22 => decodeNoOperand .scArm imm
  | 0x30 => decodeAdvance (.adv imm) imm
  | 0x31 => decodeAdvance (.msadv imm) imm
  | 0x40 => decodeNoOperand .rdduty imm
  | 0x41 => decodeNoOperand .rbOpen imm
  | 0x42 => decodeNoOperand .rbRead imm
  | 0x43 => .op (.rbWrite imm)
  | _ => .illegal .unknownOp

/-- The decoder: every word is an operation or illegal (R84); no word is read with another (R86). -/
def decode (w : OpWord) : Decoded := decodeFields (opField w) (immField w)

/-- The operation code of R83. -/
def Instr.opcode : Instr → Nat
  | .reset => 0x01
  | .init1 => 0x02
  | .init0 => 0x02
  | .sdDisarm => 0x03
  | .sdClkoff => 0x04
  | .sdMask => 0x05
  | .pgAck => 0x10
  | .pgRearm => 0x11
  | .pgChk => 0x12
  | .pgOut => 0x13
  | .scUpd => 0x20
  | .scBnd => 0x21
  | .scArm => 0x22
  | .adv _ => 0x30
  | .msadv _ => 0x31
  | .rdduty => 0x40
  | .rbOpen => 0x41
  | .rbRead => 0x42
  | .rbWrite _ => 0x43

/-- The immediate of R82: the operand, 0 for an operation that takes none. -/
def Instr.operand : Instr → Nat
  | .init1 => 1
  | .adv n => n
  | .msadv n => n
  | .rbWrite len => len
  | .init0 => 0
  | .reset | .sdDisarm | .sdClkoff | .sdMask => 0
  | .pgAck | .pgRearm | .pgChk | .pgOut => 0
  | .scUpd | .scBnd | .scArm => 0
  | .rdduty | .rbOpen | .rbRead => 0

/-- The word of an operation: `op` in bits 31:24, `imm` in bits 23:0 (R80). -/
def encode (i : Instr) : OpWord := BitVec.ofNat 8 i.opcode ++ BitVec.ofNat 24 i.operand

/-- The agent of an operation (R83). -/
def Instr.agent : Instr → Agent
  | .reset | .init1 | .init0 | .sdDisarm | .sdClkoff | .sdMask => .host
  | .pgAck | .pgRearm | .pgChk | .pgOut => .pg
  | .scUpd | .scBnd | .scArm => .sc
  | .adv _ => .hwt
  | .msadv _ => .swt
  | .rdduty | .rbOpen | .rbRead | .rbWrite _ => .host

/-- `match` of the operation's row of the opcode table (R83). -/
def Instr.rowMatch : Instr → OpWord
  | .reset => 0x01000000
  | .init1 => 0x02000001
  | .init0 => 0x02000000
  | .sdDisarm => 0x03000000
  | .sdClkoff => 0x04000000
  | .sdMask => 0x05000000
  | .pgAck => 0x10000000
  | .pgRearm => 0x11000000
  | .pgChk => 0x12000000
  | .pgOut => 0x13000000
  | .scUpd => 0x20000000
  | .scBnd => 0x21000000
  | .scArm => 0x22000000
  | .adv _ => 0x30000000
  | .msadv _ => 0x31000000
  | .rdduty => 0x40000000
  | .rbOpen => 0x41000000
  | .rbRead => 0x42000000
  | .rbWrite _ => 0x43000000

/-- `mask` of the operation's row of the opcode table (R83). -/
def Instr.rowMask : Instr → OpWord
  | .adv _ | .msadv _ | .rbWrite _ => 0xFF000000
  | .reset | .init1 | .init0 | .sdDisarm | .sdClkoff | .sdMask => 0xFFFFFFFF
  | .pgAck | .pgRearm | .pgChk | .pgOut => 0xFFFFFFFF
  | .scUpd | .scBnd | .scArm => 0xFFFFFFFF
  | .rdduty | .rbOpen | .rbRead => 0xFFFFFFFF

/-- The word whose low `nbits` bits are those of `w`, every bit above them 0. -/
def tableWord (nbits w : Nat) : OpWord := BitVec.ofNat 32 (w % 2 ^ nbits)

/-- The operation the decoder reads from a word numbered as the opcode table numbers it, none where it is illegal. -/
def decodeTableWord (nbits w : Nat) : Option Instr :=
  match decode (tableWord nbits w) with
  | .op i => some i
  | .illegal _ => none

end Sys2Proof
end

