-- ==== Sys2Proof/Config.lean ====
section
/-! DEFINITION. What an instance of the block fixes: the constants of 00_scope.md R5, the parameters of R6, and
the values the spec leaves open (uninterpreted constants: nothing can evaluate them). -/
namespace Sys2Proof.Config

/-! ## Constants the source fixes (00_scope.md R5; kept named, 93_implementation_defined.md G4) -/

/-- `DUTY_MIN`, the leftmost duty value (R5). -/
abbrev dutyMin : Nat := 110
/-- `DUTY_MAX`, the rightmost duty value (R5). -/
abbrev dutyMax : Nat := 470
/-- `DUTY_STEP` (R5). -/
abbrev dutyStep : Nat := 60
/-- `DUTY_DOMAIN`, the seven legal duty values (R5). -/
abbrev dutyDomain : List Nat := [110, 170, 230, 290, 350, 410, 470]
/-- `GATE_DIV`, hardware timer periods per logical PWM cycle (R5). -/
abbrev gateDiv : Nat := 4
/-- `GATE_PHASE`, the phase at which the duty value is applied (R5). -/
abbrev gatePhase : Nat := 3
/-- `SLACK`, the slack window of the catch-up loop in ticks (R5). -/
abbrev slack : Nat := 8
/-- `SWEEP_MS`, the sweep interval in milliseconds (R5). -/
abbrev sweepMs : Nat := 1000

/-! ## Parameters (00_scope.md R6) -/

/-- The parameters of an instance: four register widths and the three values the source names and does not give
(R6). They are constants of the instance, not registers (70_reset_and_hazards.md R232); log 1. -/
structure Params where
  /-- `WORD_W`, the width of DUTYVAL, PWMDUTY, PWMCTRL, PWMPERVAL. -/
  wordW : Nat
  /-- `CNT_W`, the width of PERCNT. -/
  cntW : Nat
  /-- `TICK_W`, the width of TICKCNT and MATCH. -/
  tickW : Nat
  /-- `MS_W`, the width of MSNOW and SWDL. -/
  msW : Nat
  /-- `TOGGLE_TICK`, the tick interval added to MATCH at every re-arm. -/
  toggleTick : Nat
  /-- `PWM_CTRL_VAL`, written to PWMCTRL at startup. -/
  pwmCtrlVal : Nat
  /-- `PWM_PERIOD_VAL`, written to PWMPERVAL at startup. -/
  pwmPeriodVal : Nat
  deriving DecidableEq, Repr

/-- The constraints of R6. An instance that breaks one is refused (93_implementation_defined.md U8; `State.launch?`). -/
abbrev Params.Ok (p : Params) : Prop :=
  9 ≤ p.wordW ∧ 2 ≤ p.cntW ∧ 6 ≤ p.tickW ∧ 12 ≤ p.msW ∧
  slack < p.toggleTick ∧ p.toggleTick < 2 ^ (p.tickW - 2) ∧
  p.pwmCtrlVal < 2 ^ p.wordW ∧ p.pwmPeriodVal < 2 ^ p.wordW

/-! ## What the spec leaves open -/

/-- The k-th free value, an arbitrary number: the spec's "any value" (93_implementation_defined.md, U3 to U6; log 5). -/
opaque freeValue : Nat → Nat
/-- Which of its admissible values TOGGLE_TICK has (92_eei_decisions.md D3, OPEN; log 2). -/
opaque toggleTickRaw : Nat
/-- PWM_CTRL_VAL before it is cut to WORD_W bits (92_eei_decisions.md D4, OPEN; log 2). -/
opaque pwmCtrlRaw : Nat
/-- PWM_PERIOD_VAL before it is cut to WORD_W bits (92_eei_decisions.md D4, OPEN; log 2). -/
opaque pwmPeriodRaw : Nat
/-- TICKCNT at launch before it is cut to TICK_W bits, a free parameter (10_state.md R36; log 6). -/
opaque launchTick : Nat
/-- MSNOW at launch before it is cut to MS_W bits, a free parameter (10_state.md R37; log 6). -/
opaque launchMs : Nat

/-- The k-th free value as a value of a `w`-bit register ("any value of its width", 70_reset_and_hazards.md R230). -/
def anyValue (k w : Nat) : Nat := freeValue k % 2 ^ w

/-- The instance `State.reset` holds: the default widths of R6, and every admissible TOGGLE_TICK, PWM_CTRL_VAL and
PWM_PERIOD_VAL (each uninterpreted; log 1, 2). -/
def params : Params where
  wordW := 32
  cntW := 32
  tickW := 32
  msW := 32
  toggleTick := slack + 1 + toggleTickRaw % (2 ^ 30 - (slack + 1))
  pwmCtrlVal := pwmCtrlRaw % 2 ^ 32
  pwmPeriodVal := pwmPeriodRaw % 2 ^ 32

end Sys2Proof.Config
end

