-- ==== Sys2Proof/Machine/State.lean ====
section
/-! DEFINITION. The state of the block: the twenty registers of 10_state.md R20, and beside them what the model
itself needs to run a trace (30_encoding.md R89, R90). Reset as 70_reset_and_hazards.md R230 gives it. -/
namespace Sys2Proof.Machine

/-- The values of DIR (10_state.md R26): 0 is Increasing, 1 is Decreasing. -/
inductive Direction where
  | increasing
  | decreasing
  deriving DecidableEq, Repr

/-- The values of FAULT that exist: 0 and 2 (10_state.md R34; 1 and 3 are never written, log 9). -/
inductive FaultCode where
  /-- 0: no fault -/
  | none
  /-- 2: DUTYVAL observed outside its domain during read-back -/
  | invariantViolation
  deriving DecidableEq, Repr

/-- The values of INITSTAT (10_state.md R35). -/
inductive InitStatus where
  /-- 0 -/
  | success
  /-- 1 -/
  | registrationFailure
  deriving DecidableEq, Repr

/-- The values of PGPC, 0 to 3 in this order (10_state.md R38). -/
inductive PgPhase where
  | idle
  | rearm
  | chk
  | out
  deriving DecidableEq, Repr

/-- The values of SCPC, 0 to 2 in this order (10_state.md R39; 3 is never written, log 9). -/
inductive ScPhase where
  | idle
  | bnd
  | arm
  deriving DecidableEq, Repr

/-- The values of HPC, 0 to 2 in this order (10_state.md R40; 3 is never written, log 9). -/
inductive HostPhase where
  | idle
  | sd1
  | sd2
  deriving DecidableEq, Repr

/-- The twenty registers (10_state.md R20), the complete state of the block. A register of more than one bit that is
not an enumeration is an unsigned number below `2^W` for its width `W` (00_scope.md R8); `Regs.InWidth` says so. -/
structure Regs where
  /-- register 0, DUTYVAL (R21) -/
  dutyval : Nat
  /-- register 1, DIR (R26) -/
  dir : Direction
  /-- register 2, PERCNT (R22) -/
  percnt : Nat
  /-- register 3, MATCH (R23) -/
  matchReg : Nat
  /-- register 4, SWDL (R24) -/
  swdl : Nat
  /-- register 5, PWMDUTY (R25) -/
  pwmduty : Nat
  /-- register 6, PWMCTRL (R29) -/
  pwmctrl : Nat
  /-- register 7, PWMPERVAL (R30) -/
  pwmperval : Nat
  /-- register 8, MPEND (R27) -/
  mpend : Bool
  /-- register 9, MIEN (R31) -/
  mien : Bool
  /-- register 10, SWARM (R32) -/
  swarm : Bool
  /-- register 11, CLKEN (R33) -/
  clken : Bool
  /-- register 12, TICKCNT (R36) -/
  tickcnt : Nat
  /-- register 13, MSNOW (R37) -/
  msnow : Nat
  /-- register 14, FAULT (R34) -/
  fault : FaultCode
  /-- register 15, INITSTAT (R35) -/
  initstat : InitStatus
  /-- register 16, RBDONE (R28) -/
  rbdone : Bool
  /-- register 17, PGPC (R38) -/
  pgpc : PgPhase
  /-- register 18, SCPC (R39) -/
  scpc : ScPhase
  /-- register 19, HPC (R40) -/
  hpc : HostPhase
  deriving DecidableEq, Repr

/-- The twenty registers by name, numbered 0 to 19 in this order (10_state.md R20). -/
inductive Reg where
  | DUTYVAL | DIR | PERCNT | MATCH | SWDL | PWMDUTY | PWMCTRL | PWMPERVAL | MPEND | MIEN
  | SWARM | CLKEN | TICKCNT | MSNOW | FAULT | INITSTAT | RBDONE | PGPC | SCPC | HPC
  deriving DecidableEq, Repr

/-- What an operation returns to the host (30_encoding.md R90). -/
inductive Output where
  /-- INIT returns INITSTAT after the operation -/
  | initStatus (st : InitStatus)
  /-- RDDUTY returns a number -/
  | duty (v : Nat)
  /-- RB.READ returns a character string, possibly empty -/
  | text (cs : List Char)
  /-- RB.WRITE returns the status `accepted` -/
  | accepted
  deriving DecidableEq, Repr

/-- The state of the model. `regs` is the block's whole state (10_state.md R20); the other fields are the model's own
(INVENTORY.md, State). -/
structure State where
  /-- the constants of the instance (00_scope.md R6); no operation writes them (log 1) -/
  params : Config.Params
  /-- the twenty registers -/
  regs : Regs
  /-- the operation words still to be taken, the next one first (30_encoding.md R80; log 3) -/
  trace : List OpWord
  /-- the values returned to the host so far, in order (30_encoding.md R90) -/
  returned : List Output
  /-- the values PWMDUTY has taken so far, in order, the one it holds last (10_state.md R25, 30_encoding.md R90; log 7) -/
  pwmSeq : List Nat
  /-- the number of the next free value (log 5) -/
  nextFree : Nat
  deriving DecidableEq, Repr

/-- How the machine stops with a fault. The block itself has no fault that stops it (60_exceptions.md R201, R203). -/
inductive Fault where
  /-- Raised by `step` when no operation word is left: nothing further happens until the host supplies one. Safe: the
  model stops where the spec describes no further operation (log 4). -/
  | traceExhausted
  deriving DecidableEq, Repr

/-- Why an operation word is refused: a trace containing it is not a run (00_scope.md R11, 30_encoding.md R89). -/
inductive Refusal where
  /-- Raised by `exec` for an operation without a meaning; no operation of this model is. Safe. -/
  | notModelled (mnemonic : String)
  /-- Raised by `step` for a word that names no operation (30_encoding.md R84). Safe: the spec refuses it. -/
  | illegalWord (w : OpWord) (why : Illegal)
  /-- Raised by the meaning of a PG or SC operation whose guard does not hold: not enabled, no step (00_scope.md R11;
  log 8). Safe: the spec gives it no step. -/
  | notEnabled (i : Instr)
  /-- Raised by the meaning of INIT or an SD operation issued against its guard (93_implementation_defined.md U16;
  log 8). Safe: the spec refuses it. -/
  | hostAgainstGuard (i : Instr)
  deriving DecidableEq, Repr

/-- What one operation or one step answers. -/
abbrev Outcome := Host.Outcome State Fault Refusal

/-- The registers after RESET (70_reset_and_hazards.md R230) with TICKCNT = `t` and MSNOW = `m`, the five registers
the spec gives no value holding the free values number 0 to 4 (log 6). -/
def Regs.atReset (p : Config.Params) (t m : Nat) : Regs where
  dutyval := Config.dutyMin
  dir := .increasing
  percnt := 0
  matchReg := Config.anyValue 0 p.tickW
  swdl := Config.anyValue 1 p.msW
  pwmduty := Config.anyValue 2 p.wordW
  pwmctrl := Config.anyValue 3 p.wordW
  pwmperval := Config.anyValue 4 p.wordW
  mpend := false
  mien := false
  swarm := false
  clken := false
  tickcnt := t % 2 ^ p.tickW
  msnow := m % 2 ^ p.msW
  fault := .none
  initstat := .success
  rbdone := false
  pgpc := .idle
  scpc := .idle
  hpc := .idle

/-- The reset state of an instance at tick `t` and millisecond `m` (95_test_vectors.md, "Reset state (t, m)"). The value
PWMDUTY holds is the first of its sequence (log 7). -/
def State.launch (p : Config.Params) (t m : Nat) : State where
  params := p
  regs := Regs.atReset p t m
  trace := []
  returned := []
  pwmSeq := [Config.anyValue 2 p.wordW]
  nextFree := 5

/-- The launch of an instance; one that breaks a constraint of R6 is refused (93_implementation_defined.md U8). -/
def State.launch? (p : Config.Params) (t m : Nat) : Option State :=
  if p.Ok then some (State.launch p t m) else none

/-- The machine right after reset, at free launch values of the two time bases (10_state.md R36, R37). -/
def State.reset : State := State.launch Config.params Config.launchTick Config.launchMs

end Sys2Proof.Machine
end

