-- ==== Sys2Proof/Machine/Operands.lean ====
section
/-! DEFINITION. The arithmetic of the rules (00_scope.md R9) and the register space (10_state.md R20, R42): every
operand of an operation is a register named by the operation, or its immediate. -/
namespace Sys2Proof.Machine

/-- `add_W(a, b)`: addition that wraps at `w` bits (00_scope.md R9). -/
def addW (w a b : Nat) : Nat := (a + b) % 2 ^ w

/-- `sub_W(a, b)`: `(a - b) mod 2^W` (00_scope.md R9). -/
def subW (w a b : Nat) : Nat := (a + (2 ^ w - b % 2 ^ w)) % 2 ^ w

/-- `sdiff_W(a, b)`: the signed distance from `b` to `a` on a `w`-bit circular counter (00_scope.md R9). -/
def sdiffW (w a b : Nat) : Int :=
  if subW w a b < 2 ^ (w - 1) then (subW w a b : Int) else (subW w a b : Int) - 2 ^ w

/-- The width of a register (10_state.md R20). -/
def Reg.width (p : Config.Params) : Reg → Nat
  | .DUTYVAL | .PWMDUTY | .PWMCTRL | .PWMPERVAL => p.wordW
  | .PERCNT => p.cntW
  | .MATCH | .TICKCNT => p.tickW
  | .SWDL | .MSNOW => p.msW
  | .DIR | .MPEND | .MIEN | .SWARM | .CLKEN | .INITSTAT | .RBDONE => 1
  | .FAULT | .PGPC | .SCPC | .HPC => 2

/-- The number of a register (10_state.md R20). -/
def Reg.number : Reg → Nat
  | .DUTYVAL => 0
  | .DIR => 1
  | .PERCNT => 2
  | .MATCH => 3
  | .SWDL => 4
  | .PWMDUTY => 5
  | .PWMCTRL => 6
  | .PWMPERVAL => 7
  | .MPEND => 8
  | .MIEN => 9
  | .SWARM => 10
  | .CLKEN => 11
  | .TICKCNT => 12
  | .MSNOW => 13
  | .FAULT => 14
  | .INITSTAT => 15
  | .RBDONE => 16
  | .PGPC => 17
  | .SCPC => 18
  | .HPC => 19

/-- DIR as a number (10_state.md R26). -/
def Direction.code : Direction → Nat
  | .increasing => 0
  | .decreasing => 1

/-- FAULT as a number (10_state.md R34). -/
def FaultCode.code : FaultCode → Nat
  | .none => 0
  | .invariantViolation => 2

/-- INITSTAT as a number (10_state.md R35). -/
def InitStatus.code : InitStatus → Nat
  | .success => 0
  | .registrationFailure => 1

/-- PGPC as a number (10_state.md R38). -/
def PgPhase.code : PgPhase → Nat
  | .idle => 0
  | .rearm => 1
  | .chk => 2
  | .out => 3

/-- SCPC as a number (10_state.md R39). -/
def ScPhase.code : ScPhase → Nat
  | .idle => 0
  | .bnd => 1
  | .arm => 2

/-- HPC as a number (10_state.md R40). -/
def HostPhase.code : HostPhase → Nat
  | .idle => 0
  | .sd1 => 1
  | .sd2 => 2

/-- `x[NAME]`: one whole register as an unsigned number (00_scope.md R10, 20_memory.md R61). -/
def Regs.read (r : Regs) : Reg → Nat
  | .DUTYVAL => r.dutyval
  | .DIR => r.dir.code
  | .PERCNT => r.percnt
  | .MATCH => r.matchReg
  | .SWDL => r.swdl
  | .PWMDUTY => r.pwmduty
  | .PWMCTRL => r.pwmctrl
  | .PWMPERVAL => r.pwmperval
  | .MPEND => r.mpend.toNat
  | .MIEN => r.mien.toNat
  | .SWARM => r.swarm.toNat
  | .CLKEN => r.clken.toNat
  | .TICKCNT => r.tickcnt
  | .MSNOW => r.msnow
  | .FAULT => r.fault.code
  | .INITSTAT => r.initstat.code
  | .RBDONE => r.rbdone.toNat
  | .PGPC => r.pgpc.code
  | .SCPC => r.scpc.code
  | .HPC => r.hpc.code

/-- Every register holds a number of its width (00_scope.md R8). -/
def Regs.InWidth (p : Config.Params) (r : Regs) : Prop := ∀ q : Reg, r.read q < 2 ^ q.width p

/-- The angle label of a duty value, the table of 42_readback.md R140; none outside the seven. -/
def angleText (v : Nat) : Option (List Char) :=
  match v with
  | 110 => some ['0']
  | 170 => some ['3', '0']
  | 230 => some ['6', '0']
  | 290 => some ['9', '0']
  | 350 => some ['1', '2', '0']
  | 410 => some ['1', '5', '0']
  | 470 => some ['1', '8', '0']
  | _ => none

/-- The angle in degrees, the third column of the table of 42_readback.md R140; none outside the seven. -/
def angleDegrees (v : Nat) : Option Nat :=
  match v with
  | 110 => some 0
  | 170 => some 30
  | 230 => some 60
  | 290 => some 90
  | 350 => some 120
  | 410 => some 150
  | 470 => some 180
  | _ => none

/-- The bytes of a label, one ASCII byte a character (42_readback.md R145; PRESUMED with the spec, log 14). -/
def labelBytes (cs : List Char) : List (BitVec 8) := cs.map fun c => BitVec.ofNat 8 c.toNat

end Sys2Proof.Machine
end

