-- ==== Sys2Proof/Machine/Flags.lean ====
section
/-! DEFINITION. Every condition an operation tests or a flag records: the match, the expiry, the slack window, the
gate phase, the duty domain, and which phases make the block quiescent or stopped. -/
namespace Sys2Proof.Machine

/-- How many increments bring TICKCNT to MATCH: `(MATCH - TICKCNT) mod 2^TICK_W`, and a whole turn of the counter when
they are equal (43_timer_facilities.md R161, corner cases; log 11). -/
def ticksToMatch (p : Config.Params) (r : Regs) : Nat :=
  if subW p.tickW r.matchReg r.tickcnt = 0 then 2 ^ p.tickW else subW p.tickW r.matchReg r.tickcnt

/-- `n` increments of TICKCNT reach MATCH (43_timer_facilities.md R161). -/
abbrev MatchReached (p : Config.Params) (r : Regs) (n : Nat) : Prop := ticksToMatch p r ≤ n

/-- The sweep deadline has expired (43_timer_facilities.md R166): armed, and reached or passed. -/
abbrev SweepExpired (p : Config.Params) (r : Regs) : Prop :=
  r.swarm = true ∧ 0 ≤ sdiffW p.msW r.msnow r.swdl

/-- The match interrupt is asserted (60_exceptions.md R205). -/
abbrev MatchAsserted (r : Regs) : Prop := r.mpend = true ∧ r.mien = true

/-- MATCH is already due within the slack window (40_pulse_generator.md R103). -/
abbrev DueWithinSlack (p : Config.Params) (r : Regs) : Prop :=
  sdiffW p.tickW r.matchReg r.tickcnt ≤ Config.slack

/-- The period gate: `PERCNT mod 4 = 3` (40_pulse_generator.md R104). -/
abbrev GateOpen (percnt : Nat) : Prop := percnt % Config.gateDiv = Config.gatePhase

/-- The value is one of the seven of `DUTY_DOMAIN` (00_scope.md R5). -/
abbrev InDutyDomain (v : Nat) : Prop := v ∈ Config.dutyDomain

/-- All three sequencers are idle (00_scope.md R12, "quiescent"). -/
abbrev Quiescent (r : Regs) : Prop := r.hpc = .idle ∧ r.pgpc = .idle ∧ r.scpc = .idle

/-- The block is stopped (00_scope.md R12, "stopped"). -/
abbrev Stopped (r : Regs) : Prop :=
  Quiescent r ∧ r.mien = false ∧ r.swarm = false ∧ r.clken = false

end Sys2Proof.Machine
end

