-- ==== Sys2Proof/Machine/Ops.lean ====
section
/-! DEFINITION. The operations the meanings share: a guarded step, a returned value, the write of the block's output,
a free value, and the recording of an invariant violation (60_exceptions.md R201), the block's one exception. Nothing
returns from an exception: the spec has no such operation (60_exceptions.md R210). -/
namespace Sys2Proof.Machine

/-- How an operation whose guard fails is turned away: a HOST operation is refused, another is not enabled
(00_scope.md R11; log 8). -/
def guardRefusal (i : Instr) : Refusal :=
  match i.agent with
  | .host => .hostAgainstGuard i
  | .pg | .sc | .hwt | .swt => .notEnabled i

/-- An operation steps to `t` when its guard `g` holds, and has no step otherwise (00_scope.md R11). -/
def guarded (i : Instr) (g : Prop) [Decidable g] (t : State) : Outcome :=
  if g then .next t else .refused (guardRefusal i)

/-- `return v`: the operation's output goes to the host (00_scope.md R10, 30_encoding.md R90). -/
def State.emit (s : State) (o : Output) : State := { s with returned := s.returned ++ [o] }

/-- PWMDUTY, the block's output, takes a value, and its sequence of values records it (10_state.md R25, 30_encoding.md
R90; log 7). -/
def State.writePwmDuty (s : State) (v : Nat) : State :=
  { s with regs.pwmduty := v, pwmSeq := s.pwmSeq ++ [v] }

/-- The k-th of the free values an operation draws, as a `w`-bit value (93_implementation_defined.md, "drawn afresh"). -/
def State.anyValue (s : State) (k w : Nat) : Nat := Config.anyValue (s.nextFree + k) w

/-- The operation has drawn `n` free values: the next draws are fresh ones. -/
def State.drew (s : State) (n : Nat) : State := { s with nextFree := s.nextFree + n }

/-- `raise InvariantViolation`: FAULT becomes 2 if it was 0; nothing else is written and nothing is returned
(60_exceptions.md R201). -/
def State.raiseInvariantViolation (s : State) : State :=
  { s with regs.fault := if s.regs.fault = .none then .invariantViolation else s.regs.fault }

end Sys2Proof.Machine
end

