-- ==== Sys2Proof/Machine/Lifecycle.lean ====
section
/-! DEFINITION. RESET, INIT and the three shutdown operations (44_lifecycle.md). -/
namespace Sys2Proof.Machine

/-- RESET (44_lifecycle.md R181): always enabled; TICKCNT and MSNOW keep their values, five registers get any value. -/
def execReset (s : State) : Outcome :=
  .next (({ s.writePwmDuty (s.anyValue 2 s.params.wordW) with
    regs := {
      dutyval := Config.dutyMin
      dir := .increasing
      percnt := 0
      matchReg := s.anyValue 0 s.params.tickW
      swdl := s.anyValue 1 s.params.msW
      pwmduty := s.anyValue 2 s.params.wordW
      pwmctrl := s.anyValue 3 s.params.wordW
      pwmperval := s.anyValue 4 s.params.wordW
      mpend := false
      mien := false
      swarm := false
      clken := false
      tickcnt := s.regs.tickcnt
      msnow := s.regs.msnow
      fault := .none
      initstat := .success
      rbdone := false
      pgpc := .idle
      scpc := .idle
      hpc := .idle } }).drew 5)

/-- INIT 1 (44_lifecycle.md R182): the startup hook, the interrupt claim succeeds; returns 0. PWMDUTY is any value from
here to the first PG.OUT (10_state.md R25, 70_reset_and_hazards.md R239, 93_implementation_defined.md U3; that R182 says
INIT does not write it is log 18). -/
def execInit1 (s : State) : Outcome :=
  guarded .init1 (Stopped s.regs)
    ((({ s.writePwmDuty (s.anyValue 0 s.params.wordW) with
      regs.pwmctrl := s.params.pwmCtrlVal
      regs.pwmperval := s.params.pwmPeriodVal
      regs.clken := true
      regs.dutyval := Config.dutyMin
      regs.dir := .increasing
      regs.percnt := 0
      regs.mpend := false
      regs.matchReg := addW s.params.tickW s.regs.tickcnt s.params.toggleTick
      regs.mien := true
      regs.swdl := addW s.params.msW s.regs.msnow Config.sweepMs
      regs.swarm := true
      regs.initstat := .success }).emit (.initStatus .success)).drew 1)

/-- INIT 0 (44_lifecycle.md R183): the interrupt claim fails; the block ends stopped, four registers get any value;
returns 1. PWMDUTY is any value from here on, as after INIT 1 (log 18). -/
def execInit0 (s : State) : Outcome :=
  guarded .init0 (Stopped s.regs)
    ((({ s.writePwmDuty (s.anyValue 4 s.params.wordW) with
      regs.dutyval := Config.dutyMin
      regs.dir := .increasing
      regs.percnt := 0
      regs.swarm := false
      regs.clken := false
      regs.mien := false
      regs.mpend := false
      regs.pwmctrl := s.anyValue 0 s.params.wordW
      regs.pwmperval := s.anyValue 1 s.params.wordW
      regs.matchReg := s.anyValue 2 s.params.tickW
      regs.swdl := s.anyValue 3 s.params.msW
      regs.initstat := .registrationFailure }).emit (.initStatus .registrationFailure)).drew 5)

/-- SD.DISARM (44_lifecycle.md R184): shutdown step 1, disarm the sweep timer. -/
def execSdDisarm (s : State) : Outcome :=
  guarded .sdDisarm (Quiescent s.regs) { s with regs.swarm := false, regs.hpc := .sd1 }

/-- SD.CLKOFF (44_lifecycle.md R185): shutdown step 2, disable the peripheral clock. Its guard does not test SCPC
(log 10). -/
def execSdClkoff (s : State) : Outcome :=
  guarded .sdClkoff (s.regs.hpc = .sd1 ∧ s.regs.pgpc = .idle)
    { s with regs.clken := false, regs.hpc := .sd2 }

/-- SD.MASK (44_lifecycle.md R186): shutdown step 3, mask the hardware interrupt. MPEND keeps its value. Its guard does
not test SCPC (log 10). -/
def execSdMask (s : State) : Outcome :=
  guarded .sdMask (s.regs.hpc = .sd2 ∧ s.regs.pgpc = .idle)
    { s with regs.mien := false, regs.hpc := .idle }

end Sys2Proof.Machine
end

