-- ==== Sys2Proof/Machine/PulseGenerator.lean ====
section
/-! DEFINITION. The Pulse Generator's four operations (40_pulse_generator.md). -/
namespace Sys2Proof.Machine

/-- PG.ACK (40_pulse_generator.md R101): acknowledge the match; the entry of the handler (60_exceptions.md R209). -/
def execPgAck (s : State) : Outcome :=
  guarded .pgAck (s.regs.pgpc = .idle ∧ MatchAsserted s.regs)
    { s with regs.mpend := false, regs.pgpc := .rearm }

/-- PG.REARM (40_pulse_generator.md R102): one iteration of the re-arm step, with its count. -/
def execPgRearm (s : State) : Outcome :=
  guarded .pgRearm (s.regs.pgpc = .rearm)
    { s with
      regs.matchReg := addW s.params.tickW s.regs.matchReg s.params.toggleTick
      regs.percnt := addW s.params.cntW s.regs.percnt 1
      regs.pgpc := .chk }

/-- PG.CHK (40_pulse_generator.md R103): the loop test on one sample of TICKCNT. -/
def execPgChk (s : State) : Outcome :=
  guarded .pgChk (s.regs.pgpc = .chk)
    { s with regs.pgpc := if DueWithinSlack s.params s.regs then .rearm else .out }

/-- What PG.OUT writes with the clock on: DUTYVAL at the gate phase, else 0 (40_pulse_generator.md R104). -/
def gatedDuty (r : Regs) : Nat := if GateOpen r.percnt then r.dutyval else 0

/-- PG.OUT (40_pulse_generator.md R104): the gated write of PWMDUTY, any value when the peripheral clock is off. -/
def execPgOut (s : State) : Outcome :=
  guarded .pgOut (s.regs.pgpc = .out)
    (if s.regs.clken = true then
      { s.writePwmDuty (gatedDuty s.regs) with regs.pgpc := .idle }
    else
      { (s.writePwmDuty (s.anyValue 0 s.params.wordW)).drew 1 with regs.pgpc := .idle })

end Sys2Proof.Machine
end

