-- ==== Sys2Proof/Machine/Readback.lean ====
section
/-! DEFINITION. The duty-value read port and the read-back surface (42_readback.md). -/
namespace Sys2Proof.Machine

/-- RDDUTY (42_readback.md R141): returns DUTYVAL; a value outside the domain raises InvariantViolation instead. -/
def execRdduty (s : State) : Outcome :=
  .next (if InDutyDomain s.regs.dutyval then s.emit (.duty s.regs.dutyval)
    else s.raiseInvariantViolation)

/-- RB.OPEN (42_readback.md R142): open or reopen the session. -/
def execRbOpen (s : State) : Outcome := .next { s with regs.rbdone := false }

/-- RB.READ (42_readback.md R143): the angle as text at the first read of a session, empty at every later one; a value
outside the domain raises InvariantViolation, returns nothing and leaves RBDONE. -/
def execRbRead (s : State) : Outcome :=
  .next (if s.regs.rbdone = true then s.emit (.text [])
    else match angleText s.regs.dutyval with
      | some cs => { s with regs.rbdone := true }.emit (.text cs)
      | none => s.raiseInvariantViolation)

/-- RB.WRITE len (42_readback.md R144): accepted, no effect on the block, whatever the length. -/
def execRbWrite (_len : Nat) (s : State) : Outcome := .next (s.emit .accepted)

end Sys2Proof.Machine
end

