-- ==== Sys2Proof/Machine/SweepController.lean ====
section
/-! DEFINITION. The Sweep Controller's three operations (41_sweep_controller.md). -/
namespace Sys2Proof.Machine

/-- The duty value one step further in the current direction, with wrap-around and no clamp (41_sweep_controller.md
R121, R129). -/
def nextDuty (p : Config.Params) (r : Regs) : Nat :=
  match r.dir with
  | .increasing => addW p.wordW r.dutyval Config.dutyStep
  | .decreasing => subW p.wordW r.dutyval Config.dutyStep

/-- SC.UPD (41_sweep_controller.md R121): consume the expiry and update the duty value; the entry of the sweep tick. -/
def execScUpd (s : State) : Outcome :=
  guarded .scUpd (s.regs.scpc = .idle ∧ s.regs.pgpc = .idle ∧ SweepExpired s.params s.regs)
    { s with
      regs.swarm := false
      regs.dutyval := nextDuty s.params s.regs
      regs.scpc := .bnd }

/-- The direction after the boundary check: equality tests only (41_sweep_controller.md R122). -/
def boundaryDir (r : Regs) : Direction :=
  match r.dir with
  | .increasing => if r.dutyval = Config.dutyMax then .decreasing else .increasing
  | .decreasing => if r.dutyval = Config.dutyMin then .increasing else .decreasing

/-- SC.BND (41_sweep_controller.md R122): the boundary check, strictly after the update. -/
def execScBnd (s : State) : Outcome :=
  guarded .scBnd (s.regs.scpc = .bnd ∧ s.regs.pgpc = .idle)
    { s with regs.dir := boundaryDir s.regs, regs.scpc := .arm }

/-- SC.ARM (41_sweep_controller.md R123): re-arm the deadline to now + 1000 ms; ends the sweep tick. -/
def execScArm (s : State) : Outcome :=
  guarded .scArm (s.regs.scpc = .arm ∧ s.regs.pgpc = .idle)
    { s with
      regs.swdl := addW s.params.msW s.regs.msnow Config.sweepMs
      regs.swarm := true
      regs.scpc := .idle }

end Sys2Proof.Machine
end

