-- ==== Sys2Proof/Machine/TimerFacilities.lean ====
section
/-! DEFINITION. The two timer facilities at their interface boundary (43_timer_facilities.md). -/
namespace Sys2Proof.Machine

/-- One tick as the pseudocode of R161 has it: the counter advances by 1 and is then compared with MATCH. -/
def State.tickOnce (s : State) : State :=
  let c := addW s.params.tickW s.regs.tickcnt 1
  { s with
    regs.tickcnt := c
    regs.mpend := if s.regs.mien = true ∧ c = s.regs.matchReg then true else s.regs.mpend }

/-- ADV n (43_timer_facilities.md R161): the closed form that rule gives for its `n` repetitions of one tick, with the
whole turn of the counter its corner cases name (log 11). An operand the encoding does not admit is run too (log 16). -/
def execAdv (n : Nat) (s : State) : Outcome :=
  .next { s with
    regs.tickcnt := addW s.params.tickW s.regs.tickcnt n
    regs.mpend :=
      if s.regs.mien = true ∧ MatchReached s.params s.regs n then true else s.regs.mpend }

/-- MSADV n (43_timer_facilities.md R165). An operand the encoding does not admit is run too (log 16). -/
def execMsadv (n : Nat) (s : State) : Outcome :=
  .next { s with regs.msnow := addW s.params.msW s.regs.msnow n }

end Sys2Proof.Machine
end

