-- ==== Sys2Proof/Machine/Dispatch.lean ====
section
/-! DEFINITION. One arm per operation: exec calls its meaning. -/
namespace Sys2Proof.Machine

def exec (i : Instr) (s : State) : Host.Outcome State Fault Refusal :=
  match i with
  | .reset => Sys2Proof.Machine.execReset s
  | .init1 => Sys2Proof.Machine.execInit1 s
  | .init0 => Sys2Proof.Machine.execInit0 s
  | .sdDisarm => Sys2Proof.Machine.execSdDisarm s
  | .sdClkoff => Sys2Proof.Machine.execSdClkoff s
  | .sdMask => Sys2Proof.Machine.execSdMask s
  | .pgAck => Sys2Proof.Machine.execPgAck s
  | .pgRearm => Sys2Proof.Machine.execPgRearm s
  | .pgChk => Sys2Proof.Machine.execPgChk s
  | .pgOut => Sys2Proof.Machine.execPgOut s
  | .scUpd => Sys2Proof.Machine.execScUpd s
  | .scBnd => Sys2Proof.Machine.execScBnd s
  | .scArm => Sys2Proof.Machine.execScArm s
  | .adv n => Sys2Proof.Machine.execAdv n s
  | .msadv n => Sys2Proof.Machine.execMsadv n s
  | .rdduty => Sys2Proof.Machine.execRdduty s
  | .rbOpen => Sys2Proof.Machine.execRbOpen s
  | .rbRead => Sys2Proof.Machine.execRbRead s
  | .rbWrite len => Sys2Proof.Machine.execRbWrite len s

end Sys2Proof.Machine
end

