-- ==== Sys2Proof/Machine/Trace.lean ====
section
/-! DEFINITION. Traces of operations: taking one word, taking words and operations in order (30_encoding.md R84, R89),
the pseudo-operations (R88) and what a run shows (R90). -/
namespace Sys2Proof.Machine

/-- Take one operation word: an illegal one is refused and changes nothing (30_encoding.md R84). -/
def execWord (w : OpWord) (s : State) : Outcome :=
  match decode w with
  | .op i => exec i s
  | .illegal why => .refused (.illegalWord w why)

/-- Operations taken in order; the first that has no step ends the run (30_encoding.md R89). -/
def execAll : List Instr → State → Outcome
  | [], s => .next s
  | i :: is, s =>
    match exec i s with
    | .next t => execAll is t
    | .fault f => .fault f
    | .refused r => .refused r

/-- Words taken in order (30_encoding.md R89). -/
def execWords : List OpWord → State → Outcome
  | [], s => .next s
  | w :: ws, s =>
    match execWord w s with
    | .next t => execWords ws t
    | .fault f => .fault f
    | .refused r => .refused r

/-- The observable result of a run (30_encoding.md R90). -/
structure Observation where
  /-- the returned values in order -/
  returned : List Output
  /-- the sequence of values taken by PWMDUTY -/
  pwmSeq : List Nat
  /-- the final state -/
  final : Regs
  deriving DecidableEq, Repr

/-- What a state reached by a run shows (30_encoding.md R90). -/
def State.observe (s : State) : Observation := ⟨s.returned, s.pwmSeq, s.regs⟩

/-- The pseudo-operations of 30_encoding.md R88. -/
inductive Pseudo where
  | tick
  | mstick
  | sweep
  | shutdown
  | irq
  deriving DecidableEq, Repr

/-- `SWEEP` (30_encoding.md R88, 41_sweep_controller.md R124). -/
def sweepOps : List Instr := [.scUpd, .scBnd, .scArm]

/-- `SHUTDOWN` (30_encoding.md R88, 44_lifecycle.md R187). -/
def shutdownOps : List Instr := [.sdDisarm, .sdClkoff, .sdMask]

/-- `PG.REARM`, `PG.CHK` repeated `k` times. -/
def catchUpOps : Nat → List Instr
  | 0 => []
  | k + 1 => .pgRearm :: .pgChk :: catchUpOps k

/-- One invocation of `k` iterations (40_pulse_generator.md R100). -/
def invocationOps (k : Nat) : List Instr := .pgAck :: catchUpOps k ++ [.pgOut]

/-- An advance by `n` ticks as operations: none when `n = 0` (30_encoding.md R82 has no `ADV 0`). -/
def advOps (n : Nat) : List Instr := if n = 0 then [] else [.adv n]

/-- Iterations of the catch-up loop with ticks falling before and after each PG.REARM (20_memory.md R69). -/
def loopOps : List (Nat × Nat) → List Instr
  | [] => []
  | (a, b) :: gs => advOps a ++ .pgRearm :: advOps b ++ .pgChk :: loopOps gs

/-- The number of iterations of an invocation during which TICKCNT stands still (40_pulse_generator.md R105): `/` on
integers rounds toward minus infinity for a positive divisor. -/
def iterations (p : Config.Params) (r : Regs) : Nat :=
  max 1 (((Config.slack : Int) - sdiffW p.tickW r.matchReg r.tickcnt) / (p.toggleTick : Int) + 1).toNat

/-- The operations a pseudo-operation stands for, in the state in which it stands (30_encoding.md R88; log 15). -/
def Pseudo.expand (s : State) : Pseudo → List Instr
  | .tick => [.adv 1]
  | .mstick => [.msadv 1]
  | .sweep => sweepOps
  | .shutdown => shutdownOps
  | .irq => invocationOps (iterations s.params s.regs)

/-- One entry of a trace in text form: an operation or a pseudo-operation (30_encoding.md R87, R88). -/
inductive Item where
  | op (i : Instr)
  | pseudo (p : Pseudo)
  deriving DecidableEq, Repr

/-- The operations of an entry, in the state in which it stands. -/
def Item.ops (s : State) : Item → List Instr
  | .op i => [i]
  | .pseudo p => p.expand s

/-- A text-form trace taken in order, each entry expanded against the state in which it stands. -/
def execItems : List Item → State → Outcome
  | [], s => .next s
  | x :: xs, s =>
    match execAll (x.ops s) s with
    | .next t => execItems xs t
    | .fault f => .fault f
    | .refused r => .refused r

/-- The operation words of a text-form trace started in `s`; none if some entry is no run there. -/
def itemWords : List Item → State → Option (List OpWord)
  | [], _ => some []
  | x :: xs, s =>
    match execAll (x.ops s) s with
    | .next t => (itemWords xs t).map ((x.ops s).map encode ++ ·)
    | .fault _ => none
    | .refused _ => none

end Sys2Proof.Machine
end

