-- ==== Sys2Proof/Machine/Step.lean ====
section
/-! DEFINITION. One step of the machine: the next operation word of the trace is taken (30_encoding.md R80, R89). -/
namespace Sys2Proof.Machine

/-- One step: with no word left the machine stops; otherwise the first word leaves the trace and is taken. -/
def step (s : State) : Host.Outcome State Fault Refusal :=
  match s.trace with
  | [] => .fault .traceExhausted
  | w :: rest => execWord w { s with trace := rest }

/-- The state with one more word at the front of its trace: the very next step takes it (log 3). -/
def State.withFetchWord (s : State) (nbits w : Nat) : State :=
  { s with trace := tableWord nbits w :: s.trace }

end Sys2Proof.Machine
end

