-- ==== Sys2Proof/Machine/Assembler.lean ====
section
/-! DEFINITION. The text form of a trace (30_encoding.md R87): one operation a line, the pseudo-operations of R88
included. What R87 leaves open (which blanks, the letter case of hexadecimal digits) is log 13. -/
namespace Sys2Proof.Machine

/-- What separates the words of a line (R87 says spaces; tab and carriage return are log 13). -/
def isBlankChar (c : Char) : Bool := c == ' ' || c == '\t' || c == '\r'

/-- A semicolon starts a comment that runs to the end of the line (R87). -/
def dropComment (cs : List Char) : List Char := cs.takeWhile (· != ';')

/-- The words of a line; the first argument holds the word read so far, last character first. -/
def lineWords : List Char → List Char → List (List Char)
  | acc, [] => if acc.isEmpty then [] else [acc.reverse]
  | acc, c :: cs =>
    if isBlankChar c then
      (if acc.isEmpty then lineWords [] cs else acc.reverse :: lineWords [] cs)
    else lineWords (c :: acc) cs

/-- A digit of base 10 or 16; both letter cases (log 13). -/
def digitValue (base : Nat) (c : Char) : Option Nat :=
  let n := c.toNat
  if 48 ≤ n ∧ n ≤ 57 then some (n - 48)
  else if base = 16 ∧ 97 ≤ n ∧ n ≤ 102 then some (n - 87)
  else if base = 16 ∧ 65 ≤ n ∧ n ≤ 70 then some (n - 55)
  else none

/-- A numeral, most significant digit first; the second argument is the value read so far. -/
def numeralValue (base : Nat) : List Char → Nat → Option Nat
  | [], v => some v
  | c :: cs, v =>
    match digitValue base c with
    | some d => numeralValue base cs (v * base + d)
    | none => none

/-- An operand: an unsigned decimal number, or a hexadecimal number prefixed `0x` (R87). -/
def parseOperand : List Char → Option Nat
  | [] => none
  | '0' :: 'x' :: [] => none
  | '0' :: 'x' :: c :: cs => numeralValue 16 (c :: cs) 0
  | c :: cs => numeralValue 10 (c :: cs) 0

/-- The mnemonics that stand alone on a line (R83, R87, R88). -/
def loneMnemonics : List (String × Item) :=
  [("RESET", .op .reset), ("SD.DISARM", .op .sdDisarm), ("SD.CLKOFF", .op .sdClkoff), ("SD.MASK", .op .sdMask),
   ("PG.ACK", .op .pgAck), ("PG.REARM", .op .pgRearm), ("PG.CHK", .op .pgChk), ("PG.OUT", .op .pgOut),
   ("SC.UPD", .op .scUpd), ("SC.BND", .op .scBnd), ("SC.ARM", .op .scArm),
   ("RDDUTY", .op .rdduty), ("RB.OPEN", .op .rbOpen), ("RB.READ", .op .rbRead),
   ("TICK", .pseudo .tick), ("MSTICK", .pseudo .mstick), ("SWEEP", .pseudo .sweep),
   ("SHUTDOWN", .pseudo .shutdown), ("IRQ", .pseudo .irq)]

/-- The entry a lone mnemonic stands for. -/
def loneItem (m : List Char) : Option Item :=
  (loneMnemonics.find? fun e => e.1.toList == m).map (·.2)

/-- The operation a mnemonic with its operand stands for (R83, R87). -/
def operandItem (m : List Char) (n : Nat) : Option Item :=
  if m = "INIT".toList then
    (if n = 1 then some (.op .init1) else if n = 0 then some (.op .init0) else none)
  else if m = "ADV".toList then some (.op (.adv n))
  else if m = "MSADV".toList then some (.op (.msadv n))
  else if m = "RB.WRITE".toList then some (.op (.rbWrite n))
  else none

/-- Only operations the encoding admits have a word (R82, R84). -/
def Item.wellFormed : Item → Bool
  | .op i => i.wellFormed
  | .pseudo _ => true

/-- What a line of a trace is. -/
inductive Line where
  /-- ignored (R87) -/
  | blank
  | item (x : Item)
  /-- no line of a trace -/
  | bad
  deriving DecidableEq, Repr

/-- One line, comment and all (R87). -/
def parseLine (cs : List Char) : Line :=
  match lineWords [] (dropComment cs) with
  | [] => .blank
  | [m] =>
    match loneItem m with
    | some x => .item x
    | none => .bad
  | [m, a] =>
    match (parseOperand a).bind (operandItem m) with
    | some x => if x.wellFormed then .item x else .bad
    | none => .bad
  | _ :: _ :: _ :: _ => .bad

/-- The lines of a text; the first argument holds the line read so far, last character first. -/
def textLines : List Char → List Char → List (List Char)
  | acc, [] => [acc.reverse]
  | acc, c :: cs => if c = '\n' then acc.reverse :: textLines [] cs else textLines (c :: acc) cs

/-- The entries of lines; none if some line is not one of a trace. -/
def parseLines : List (List Char) → Option (List Item)
  | [] => some []
  | l :: ls =>
    match parseLine l with
    | .blank => parseLines ls
    | .item x => (parseLines ls).map (x :: ·)
    | .bad => none

/-- A trace in text form (R87). -/
def parseTrace (text : List Char) : Option (List Item) := parseLines (textLines [] text)

/-- The operation words of a trace in text form started in `s` (R87, R88). -/
def assemble (text : List Char) (s : State) : Option (List OpWord) :=
  (parseTrace text).bind fun xs => itemWords xs s

end Sys2Proof.Machine
end

