-- ==== Sys2Proof/Machine/Ownership.lean ====
section
/-! DEFINITION. What the spec says of every operation beside its pseudocode: which registers it writes and reads
(10_state.md R20), when it is enabled (each operation's "Enabled when"), which phases follow (40_pulse_generator.md
R111). Nothing of the machine is defined from these; the statements hold the machine against them. -/
namespace Sys2Proof.Machine

/-- The "written by" column of 10_state.md R20, by operation. RESET writes the five registers it leaves at any value
too (44_lifecycle.md R181), which R20 does not list (log 12), and INIT leaves PWMDUTY at any value (log 18). -/
def writers : Instr → List Reg
  | .reset => [.DUTYVAL, .DIR, .PERCNT, .MATCH, .SWDL, .PWMDUTY, .PWMCTRL, .PWMPERVAL, .MPEND, .MIEN, .SWARM,
      .CLKEN, .FAULT, .INITSTAT, .RBDONE, .PGPC, .SCPC, .HPC]
  | .init1 | .init0 => [.DUTYVAL, .DIR, .PERCNT, .MATCH, .SWDL, .PWMDUTY, .PWMCTRL, .PWMPERVAL, .MPEND, .MIEN,
      .SWARM, .CLKEN, .INITSTAT]
  | .sdDisarm => [.SWARM, .HPC]
  | .sdClkoff => [.CLKEN, .HPC]
  | .sdMask => [.MIEN, .HPC]
  | .pgAck => [.MPEND, .PGPC]
  | .pgRearm => [.MATCH, .PERCNT, .PGPC]
  | .pgChk => [.PGPC]
  | .pgOut => [.PWMDUTY, .PGPC]
  | .scUpd => [.DUTYVAL, .SWARM, .SCPC]
  | .scBnd => [.DIR, .SCPC]
  | .scArm => [.SWDL, .SWARM, .SCPC]
  | .adv _ => [.TICKCNT, .MPEND]
  | .msadv _ => [.MSNOW]
  | .rdduty => [.FAULT]
  | .rbOpen => [.RBDONE]
  | .rbRead => [.FAULT, .RBDONE]
  | .rbWrite _ => []

/-- The "read by" column of 10_state.md R20, by operation, guards included. -/
def readers : Instr → List Reg
  | .reset => []
  | .init1 | .init0 => [.TICKCNT, .MSNOW, .MIEN, .SWARM, .CLKEN, .PGPC, .SCPC, .HPC]
  | .sdDisarm => [.PGPC, .SCPC, .HPC]
  | .sdClkoff => [.PGPC, .HPC]
  | .sdMask => [.PGPC, .HPC]
  | .pgAck => [.MPEND, .MIEN, .PGPC]
  | .pgRearm => [.MATCH, .PERCNT, .PGPC]
  | .pgChk => [.MATCH, .TICKCNT, .PGPC]
  | .pgOut => [.DUTYVAL, .PERCNT, .CLKEN, .PGPC]
  | .scUpd => [.DUTYVAL, .DIR, .SWDL, .SWARM, .MSNOW, .PGPC, .SCPC]
  | .scBnd => [.DUTYVAL, .DIR, .PGPC, .SCPC]
  | .scArm => [.MSNOW, .PGPC, .SCPC]
  | .adv _ => [.MATCH, .MIEN, .TICKCNT]
  | .msadv _ => [.MSNOW]
  | .rdduty => [.DUTYVAL]
  | .rbOpen => []
  | .rbRead => [.DUTYVAL, .RBDONE]
  | .rbWrite _ => []

/-- "Enabled when" of every operation's rule (R101 to R104, R121 to R123, R141 to R144, R161, R165, R181 to R186). -/
def Enabled (s : State) : Instr → Prop
  | .reset | .adv _ | .msadv _ | .rdduty | .rbOpen | .rbRead | .rbWrite _ => True
  | .init1 | .init0 => s.regs.hpc = .idle ∧ s.regs.pgpc = .idle ∧ s.regs.scpc = .idle ∧ s.regs.mien = false ∧
      s.regs.swarm = false ∧ s.regs.clken = false
  | .sdDisarm => s.regs.hpc = .idle ∧ s.regs.pgpc = .idle ∧ s.regs.scpc = .idle
  | .sdClkoff => s.regs.hpc = .sd1 ∧ s.regs.pgpc = .idle
  | .sdMask => s.regs.hpc = .sd2 ∧ s.regs.pgpc = .idle
  | .pgAck => s.regs.pgpc = .idle ∧ s.regs.mpend = true ∧ s.regs.mien = true
  | .pgRearm => s.regs.pgpc = .rearm
  | .pgChk => s.regs.pgpc = .chk
  | .pgOut => s.regs.pgpc = .out
  | .scUpd => s.regs.scpc = .idle ∧ s.regs.pgpc = .idle ∧ s.regs.swarm = true ∧
      0 ≤ sdiffW s.params.msW s.regs.msnow s.regs.swdl
  | .scBnd => s.regs.scpc = .bnd ∧ s.regs.pgpc = .idle
  | .scArm => s.regs.scpc = .arm ∧ s.regs.pgpc = .idle

/-- The three sequencer phases. -/
structure Phases where
  pg : PgPhase
  sc : ScPhase
  host : HostPhase
  deriving DecidableEq, Repr

/-- The phases of a state. -/
def Regs.phases (r : Regs) : Phases := ⟨r.pgpc, r.scpc, r.hpc⟩

/-- "phase after" of the successor table of 40_pulse_generator.md R111, in the state before the operation. -/
def phasesAfter (s : State) : Instr → Phases
  | .reset => ⟨.idle, .idle, .idle⟩
  | .pgAck => { s.regs.phases with pg := .rearm }
  | .pgRearm => { s.regs.phases with pg := .chk }
  | .pgChk => { s.regs.phases with
      pg := if sdiffW s.params.tickW s.regs.matchReg s.regs.tickcnt ≤ 8 then .rearm else .out }
  | .pgOut => { s.regs.phases with pg := .idle }
  | .scUpd => { s.regs.phases with sc := .bnd }
  | .scBnd => { s.regs.phases with sc := .arm }
  | .scArm => { s.regs.phases with sc := .idle }
  | .sdDisarm => { s.regs.phases with host := .sd1 }
  | .sdClkoff => { s.regs.phases with host := .sd2 }
  | .sdMask => { s.regs.phases with host := .idle }
  | .init1 | .init0 | .adv _ | .msadv _ | .rdduty | .rbOpen | .rbRead | .rbWrite _ => s.regs.phases

end Sys2Proof.Machine
end

