-- ==== Sys2Proof/Safety.lean ====
section
/-! DEFINITION. What counts as a safe state, and the invariants claims use as launch premises. -/
namespace Sys2Proof.Machine

/-- The safety predicate: no fault is recorded (60_exceptions.md R201). -/
def State.Safe (s : State) : Prop := s.regs.fault = .none

/-- The duty invariant of 10_state.md R44: DUTYVAL is one of the seven; outside the window between SC.UPD and SC.BND,
Increasing only below 470 and Decreasing only above 110. -/
structure DutyInvariant (r : Regs) : Prop where
  domain : r.dutyval ∈ Config.dutyDomain
  increasing : r.scpc ≠ .bnd → r.dir = .increasing → r.dutyval < 470
  decreasing : r.scpc ≠ .bnd → r.dir = .decreasing → 110 < r.dutyval

/-- What the guards of the lifecycle and of the handlers keep of the control flags: the sweep timer is disarmed while a
sweep tick runs (60_exceptions.md R210); a handler runs, or the sweep timer is armed, only while the block is started;
the clock is off under an unmasked interrupt only between SD.CLKOFF and SD.MASK (40_pulse_generator.md R104). -/
structure LifecycleInvariant (r : Regs) : Prop where
  tick_disarmed : r.scpc ≠ .idle → r.swarm = false
  tick_started : r.scpc ≠ .idle → r.mien = true ∧ r.clken = true ∧ r.hpc = .idle
  armed_started : r.swarm = true → r.mien = true ∧ r.clken = true ∧ r.hpc = .idle
  invocation_unmasked : r.pgpc ≠ .idle → r.mien = true
  clock_off_window : r.mien = true → r.clken = false → r.hpc = .sd2
  clkoff_done : r.hpc = .sd2 → r.clken = false
  masked_clock_off : r.mien = false → r.clken = false

/-- The sequence of output values ends in the value PWMDUTY holds (10_state.md R25, 30_encoding.md R90; log 7). -/
def State.OutputRecorded (s : State) : Prop := s.pwmSeq.getLast? = some s.regs.pwmduty

end Sys2Proof.Machine
end

