-- ==== Sys2Proof/Certificates/Slice0/Obligations.lean ====
section
/-! DEFINITION. The statements for the provers, from the numbered rules of spec/. "The spec's own decision D<n>" is a
row of spec/92_eei_decisions.md; a statement that rests on one has basis 'derived'. -/
open Sys2Proof Sys2Proof.Machine

/-! ## Taking an operation word -/

/-- When the next word of the trace decodes to an operation, the step is that operation, in the state whose trace has
moved past the word (30_encoding.md section 6; that the words stand in a list is the model's, log 3). -/
def Obligations.StepRunsTheDecodedOperation : Prop :=
  ∀ (s : State) (w : OpWord) (rest : List OpWord) (i : Instr),
    s.trace = w :: rest → decode w = .op i → step s = exec i { s with trace := rest }

/-- The word of any operation the encoding admits, placed where the step takes its next word, is that operation run on
the state (30_encoding.md section 6; `withFetchWord` is the model's, log 3). -/
def Obligations.FetchedWordIsRunNext : Prop :=
  ∀ (i : Instr) (s : State), i.wellFormed = true → step (s.withFetchWord 32 (encode i).toNat) = exec i s

/-- An illegal word is refused, and the step with no word left stops (30_encoding.md section 4; the stop at the end of
the trace is the model's choice, log 4). -/
def Obligations.IllegalWordIsRefusedAndEmptyTraceStops : Prop :=
  (∀ (s : State) (w : OpWord) (rest : List OpWord) (why : Illegal),
    s.trace = w :: rest → decode w = .illegal why → step s = .refused (.illegalWord w why)) ∧
  (∀ s : State, s.trace = [] → step s = .fault .traceExhausted)

/-- Stepping through a trace of words is taking the operations they decode to, in order, each in the state the ones
before it left; a run exists exactly if every word is legal and every operation steps (30_encoding.md section 6). -/
def Obligations.StepsTakeTheTraceInOrder : Prop :=
  ∀ (ws : List OpWord) (s t : State),
    Sys2Proof.core.run ws.length ({ s with trace := ws } : State) = .next t ↔
      ∃ is : List Instr, ws.map decode = is.map Decoded.op ∧ execAll is { s with trace := [] } = .next t

/-! ## Encoding (30_encoding.md; the encoding is the spec's own decision D17) -/

/-- Words written out bit by bit from 30_encoding.md section 3, one for each family (and illegal ones of section 4). -/
def Obligations.WrittenWordsDecode : Prop :=
  decode 0b00000001000000000000000000000000 = .op .reset ∧
  decode 0b00000010000000000000000000000001 = .op .init1 ∧
  decode 0b00010010000000000000000000000000 = .op .pgChk ∧
  decode 0b00100010000000000000000000000000 = .op .scArm ∧
  decode 0b00110000000000000000001111101000 = .op (.adv 1000) ∧
  decode 0b00110001000000000000000000000001 = .op (.msadv 1) ∧
  decode 0b01000010000000000000000000000000 = .op .rbRead ∧
  decode 0b01000011111111111111111111111111 = .op (.rbWrite 16777215) ∧
  decode 0b00000000000000000000000000000000 = .illegal .unknownOp ∧
  decode 0b00110000000000000000000000000000 = .illegal .zeroAdvance

/-- Decode of encode is the operation, for every operation and every operand the encoding admits. -/
def Obligations.DecodeOfEncodeIsTheOperation : Prop :=
  ∀ i : Instr, i.wellFormed = true → decode (encode i) = .op i

/-- Every word that decodes to an operation is that operation's one word, and the operation is well formed: no two
words are one operation and no bit is dropped. -/
def Obligations.EveryLegalWordIsTheWordOfItsOperation : Prop :=
  ∀ (w : OpWord) (i : Instr), decode w = .op i → i.wellFormed = true ∧ encode i = w

/-- A word is an operation exactly if it has the row's match under the row's mask and its immediate is the operand. -/
def Obligations.DecodeFollowsMatchAndMask : Prop :=
  ∀ (w : OpWord) (i : Instr), i.wellFormed = true →
    (decode w = .op i ↔ w &&& i.rowMask = i.rowMatch ∧ immField w = i.operand)

/-- The illegal words are exactly the four classes of 30_encoding.md section 4. -/
def Obligations.IllegalWordsAreTheFourClasses : Prop :=
  ∀ w : OpWord, (∃ why, decode w = .illegal why) ↔
    opField w ∉ [0x01, 0x02, 0x03, 0x04, 0x05, 0x10, 0x11, 0x12, 0x13, 0x20, 0x21, 0x22, 0x30, 0x31, 0x40, 0x41,
      0x42, 0x43] ∨
    (opField w ∈ [0x01, 0x03, 0x04, 0x05, 0x10, 0x11, 0x12, 0x13, 0x20, 0x21, 0x22, 0x40, 0x41, 0x42] ∧
      immField w ≠ 0) ∨
    (opField w = 0x02 ∧ immField w / 2 ≠ 0) ∨
    (opField w ∈ [0x30, 0x31] ∧ immField w = 0)

/-! ## Arithmetic -/

/-- The arithmetic primitives of 00_scope.md section 6: addition and subtraction modulo 2^W, and the signed distance as
the one number of its range congruent to the difference (the wrap is the spec's own decision D2). -/
def Obligations.ArithmeticPrimitives : Prop :=
  ∀ (w a b : Nat),
    addW w a b = (a + b) % 2 ^ w ∧
    (subW w a b : Int) = ((a : Int) - (b : Int)) % (2 : Int) ^ w ∧
    (1 ≤ w → -(2 : Int) ^ (w - 1) ≤ sdiffW w a b ∧ sdiffW w a b < (2 : Int) ^ (w - 1) ∧
      ((2 : Int) ^ w ∣ sdiffW w a b - ((a : Int) - (b : Int))))

/-- The gate phase advances by exactly 1 modulo 4 at every increment of the period counter, the one that wraps
included (10_state.md section 2, PERCNT; the wrap is the spec's own decision D27). -/
def Obligations.GatePhaseAdvancesAcrossTheWrap : Prop :=
  ∀ (w p : Nat), 2 ≤ w → addW w p 1 % 4 = (p % 4 + 1) % 4

/-! ## The Pulse Generator: each operation's word, its effect when enabled, its refusal otherwise -/

/-- PG.ACK, 40_pulse_generator.md R101 (its word is the spec's notation, decision D17). The last two clauses: no later
operation of the invocation clears MPEND, and a match recorded meanwhile starts another invocation after PG.OUT. -/
def Obligations.PgAckAcknowledgesTheMatch : Prop :=
  decode 0x10000000 = .op .pgAck ∧
  (∀ s : State, s.regs.pgpc = .idle → s.regs.mpend = true → s.regs.mien = true →
    exec .pgAck s = .next { s with regs.mpend := false, regs.pgpc := .rearm }) ∧
  (∀ s : State, ¬(s.regs.pgpc = .idle ∧ s.regs.mpend = true ∧ s.regs.mien = true) →
    ∃ r, exec .pgAck s = .refused r) ∧
  (∀ (s t : State) (i : Instr), i ∈ [Instr.pgRearm, .pgChk, .pgOut] → exec i s = .next t →
    t.regs.mpend = s.regs.mpend) ∧
  (∀ s t : State, exec .pgOut s = .next t → s.regs.mpend = true → s.regs.mien = true → ∃ u, exec .pgAck t = .next u)

/-- PG.REARM (40_pulse_generator.md section 2): one period further and one count, with no comparison of the new MATCH
(that the two happen in one operation is the spec's own decision D9). -/
def Obligations.PgRearmAddsOnePeriodAndOneCount : Prop :=
  decode 0x11000000 = .op .pgRearm ∧
  (∀ s : State, s.regs.pgpc = .rearm →
    exec .pgRearm s = .next { s with
      regs.matchReg := (s.regs.matchReg + s.params.toggleTick) % 2 ^ s.params.tickW
      regs.percnt := (s.regs.percnt + 1) % 2 ^ s.params.cntW
      regs.pgpc := .chk }) ∧
  (∀ s : State, s.regs.pgpc ≠ .rearm → ∃ r, exec .pgRearm s = .refused r)

/-- PG.CHK (40_pulse_generator.md section 2): loop while MATCH is at most 8 ticks ahead by the signed distance, leave
the loop when it is more (the sampling order and the signed distance are the spec's own decision D7). -/
def Obligations.PgChkLoopsWithinTheSlackWindow : Prop :=
  decode 0x12000000 = .op .pgChk ∧
  (∀ s : State, s.regs.pgpc = .chk → sdiffW s.params.tickW s.regs.matchReg s.regs.tickcnt ≤ 8 →
    exec .pgChk s = .next { s with regs.pgpc := .rearm }) ∧
  (∀ s : State, s.regs.pgpc = .chk → 8 < sdiffW s.params.tickW s.regs.matchReg s.regs.tickcnt →
    exec .pgChk s = .next { s with regs.pgpc := .out }) ∧
  (∀ s : State, s.regs.pgpc ≠ .chk → ∃ r, exec .pgChk s = .refused r)

/-- PG.OUT (40_pulse_generator.md section 2): with the clock on, DUTYVAL on a count of phase 3 and 0 on any other, the
domain unchecked; with the clock off any value of the register's width, drawn afresh, everything else the same (the
spec's own decision D24). The list `pwmSeq` of the values taken (log 7) and the next free value with its count
`nextFree` (log 5) are the model's. -/
def Obligations.PgOutWritesTheGatedDuty : Prop :=
  decode 0x13000000 = .op .pgOut ∧
  (∀ s : State, s.regs.pgpc = .out → s.regs.clken = true → s.regs.percnt % 4 = 3 →
    exec .pgOut s = .next { s with
      regs.pwmduty := s.regs.dutyval, regs.pgpc := .idle, pwmSeq := s.pwmSeq ++ [s.regs.dutyval] }) ∧
  (∀ s : State, s.regs.pgpc = .out → s.regs.clken = true → s.regs.percnt % 4 ≠ 3 →
    exec .pgOut s = .next { s with regs.pwmduty := 0, regs.pgpc := .idle, pwmSeq := s.pwmSeq ++ [0] }) ∧
  (∀ s : State, s.regs.pgpc = .out → s.regs.clken = false →
    s.anyValue 0 s.params.wordW < 2 ^ s.params.wordW ∧
      exec .pgOut s = .next { s with
        regs.pwmduty := s.anyValue 0 s.params.wordW, regs.pgpc := .idle
        pwmSeq := s.pwmSeq ++ [s.anyValue 0 s.params.wordW], nextFree := s.nextFree + 1 }) ∧
  (∀ s : State, s.regs.pgpc ≠ .out → ∃ r, exec .pgOut s = .refused r)

/-! ## The Sweep Controller -/

/-- SC.UPD (41_sweep_controller.md section 2): the one shot is consumed and DUTYVAL moves by 60 in the current
direction, with wrap and without clamp or fault; refused unless idle, armed and due (the armed flag is the spec's own
decision D14). -/
def Obligations.ScUpdMovesTheDutyValue : Prop :=
  decode 0x20000000 = .op .scUpd ∧
  (∀ s : State, s.regs.scpc = .idle → s.regs.pgpc = .idle → s.regs.swarm = true →
    0 ≤ sdiffW s.params.msW s.regs.msnow s.regs.swdl → s.regs.dir = .increasing →
    exec .scUpd s = .next { s with
      regs.swarm := false, regs.dutyval := addW s.params.wordW s.regs.dutyval 60, regs.scpc := .bnd }) ∧
  (∀ s : State, s.regs.scpc = .idle → s.regs.pgpc = .idle → s.regs.swarm = true →
    0 ≤ sdiffW s.params.msW s.regs.msnow s.regs.swdl → s.regs.dir = .decreasing →
    exec .scUpd s = .next { s with
      regs.swarm := false, regs.dutyval := subW s.params.wordW s.regs.dutyval 60, regs.scpc := .bnd }) ∧
  (∀ s : State, ¬(s.regs.scpc = .idle ∧ s.regs.pgpc = .idle ∧ s.regs.swarm = true ∧
    0 ≤ sdiffW s.params.msW s.regs.msnow s.regs.swdl) → ∃ r, exec .scUpd s = .refused r)

/-- SC.BND, 41_sweep_controller.md R122 (its word is the spec's notation, decision D17): 470 is tested only when
Increasing, 110 only when Decreasing, by equality; over the update and the check from a state that meets the duty
invariant, the direction flips exactly if the updated value is 110 or 470. -/
def Obligations.ScBndFlipsOnlyAtTheEndpoints : Prop :=
  decode 0x21000000 = .op .scBnd ∧
  (∀ s : State, s.regs.scpc = .bnd → s.regs.pgpc = .idle →
    exec .scBnd s = .next { s with
      regs.dir := if s.regs.dir = .increasing ∧ s.regs.dutyval = 470 then .decreasing
        else if s.regs.dir = .decreasing ∧ s.regs.dutyval = 110 then .increasing
        else s.regs.dir
      regs.scpc := .arm }) ∧
  (∀ s : State, ¬(s.regs.scpc = .bnd ∧ s.regs.pgpc = .idle) → ∃ r, exec .scBnd s = .refused r) ∧
  (∀ s t : State, s.params.Ok → DutyInvariant s.regs → execAll [.scUpd, .scBnd] s = .next t →
    (t.regs.dir ≠ s.regs.dir ↔ t.regs.dutyval = 110 ∨ t.regs.dutyval = 470))

/-- SC.ARM, 41_sweep_controller.md R123 (its word is the spec's notation, decision D17): the new deadline is 1000 ms
after the time of this operation, and no sweep tick starts less than 1000 ms after it. -/
def Obligations.ScArmRearmsFromNow : Prop :=
  decode 0x22000000 = .op .scArm ∧
  (∀ s : State, s.regs.scpc = .arm → s.regs.pgpc = .idle →
    exec .scArm s = .next { s with
      regs.swdl := (s.regs.msnow + 1000) % 2 ^ s.params.msW, regs.swarm := true, regs.scpc := .idle }) ∧
  (∀ s : State, ¬(s.regs.scpc = .arm ∧ s.regs.pgpc = .idle) → ∃ r, exec .scArm s = .refused r) ∧
  (∀ (s t : State) (n : Nat), s.params.Ok → n < 1000 → execAll [.scArm, .msadv n] s = .next t →
    ∃ r, exec .scUpd t = .refused r)

/-! ## Read-back -/

/-- The angle table (42_readback.md section 1): the label of each of the seven duty values, the decimal digits of its
degrees, and none for any other value. -/
def Obligations.AngleTableIsExact : Prop :=
  (∀ v label degrees, (v, label, degrees) ∈ [(110, ['0'], 0), (170, ['3', '0'], 30), (230, ['6', '0'], 60),
      (290, ['9', '0'], 90), (350, ['1', '2', '0'], 120), (410, ['1', '5', '0'], 150), (470, ['1', '8', '0'], 180)] →
    angleText v = some label ∧ angleDegrees v = some degrees ∧ degrees = (v - 110) / 2 ∧
      label = Nat.toDigits 10 degrees) ∧
  (∀ v, v ∉ [110, 170, 230, 290, 350, 410, 470] → angleText v = none ∧ angleDegrees v = none)

/-- RDDUTY (42_readback.md section 1): in every state it returns DUTYVAL, or, outside the domain, returns nothing and
records the violation (the raw port and the sticky code are the spec's own decisions D16, D23). -/
def Obligations.RddutyReturnsOrRecords : Prop :=
  decode 0x40000000 = .op .rdduty ∧
  (∀ s : State, s.regs.dutyval ∈ [110, 170, 230, 290, 350, 410, 470] →
    exec .rdduty s = .next { s with returned := s.returned ++ [.duty s.regs.dutyval] }) ∧
  (∀ s : State, s.regs.dutyval ∉ [110, 170, 230, 290, 350, 410, 470] →
    exec .rdduty s = .next { s with regs.fault := .invariantViolation })

/-- RB.OPEN, 42_readback.md R142 (its word is the spec's notation, decision D17): always enabled, a session open or
not. -/
def Obligations.RbOpenStartsASession : Prop :=
  decode 0x41000000 = .op .rbOpen ∧
  (∀ s : State, exec .rbOpen s = .next { s with regs.rbdone := false })

/-- RB.READ (42_readback.md section 1): the label once a session, empty at every later read, and on a value outside the
domain the violation with nothing returned and RBDONE unchanged (the sticky code is the spec's own decision D16). -/
def Obligations.RbReadReturnsTheLabelOnce : Prop :=
  decode 0x42000000 = .op .rbRead ∧
  (∀ s : State, s.regs.rbdone = true →
    exec .rbRead s = .next { s with returned := s.returned ++ [.text []] }) ∧
  (∀ (s : State) (v : Nat) (label : List Char), s.regs.rbdone = false → s.regs.dutyval = v →
    (v, label) ∈ [(110, ['0']), (170, ['3', '0']), (230, ['6', '0']), (290, ['9', '0']), (350, ['1', '2', '0']),
      (410, ['1', '5', '0']), (470, ['1', '8', '0'])] →
    exec .rbRead s = .next { s with regs.rbdone := true, returned := s.returned ++ [.text label] }) ∧
  (∀ s : State, s.regs.rbdone = false → s.regs.dutyval ∉ [110, 170, 230, 290, 350, 410, 470] →
    exec .rbRead s = .next { s with regs.fault := .invariantViolation })

/-- RB.WRITE, 42_readback.md R144 (its words are the spec's notation, decision D17): accepted with every length, and no
register changes. -/
def Obligations.RbWriteIsAcceptedWithoutEffect : Prop :=
  (∀ len, len < 2 ^ 24 → decode (BitVec.ofNat 32 (0x43000000 + len)) = .op (.rbWrite len)) ∧
  (∀ (len : Nat) (s : State), exec (.rbWrite len) s = .next { s with returned := s.returned ++ [.accepted] })

/-! ## The timer facilities -/

/-- ADV n (43_timer_facilities.md section 1), the closed form: it completes in every state; for an advance of less than
a whole turn MPEND is set exactly under the enable when MATCH lies 1 to n ticks ahead (the comparison is the spec's own
decision D6). -/
def Obligations.AdvAdvancesAndRecordsTheMatch : Prop :=
  (∀ n, 1 ≤ n → n < 2 ^ 24 → decode (BitVec.ofNat 32 (0x30000000 + n)) = .op (.adv n)) ∧
  (∀ (n : Nat) (s : State), n < 2 ^ s.params.tickW →
    exec (.adv n) s = .next { s with
      regs.tickcnt := (s.regs.tickcnt + n) % 2 ^ s.params.tickW
      regs.mpend := s.regs.mpend || (s.regs.mien &&
        decide (1 ≤ subW s.params.tickW s.regs.matchReg s.regs.tickcnt ∧
          subW s.params.tickW s.regs.matchReg s.regs.tickcnt ≤ n)) })

/-- ADV n is n repetitions of one tick: each increments TICKCNT and then compares it with MATCH
(43_timer_facilities.md section 1; the spec's own decision D6). For whole turns of the counter (MATCH = TICKCNT and n of
at least 2^TICK_W) this is the model's reading, the pseudocode against the closed form (log 11). -/
def Obligations.AdvIsRepeatedTicks : Prop :=
  ∀ (n : Nat) (s : State), 1 ≤ s.params.tickW → s.regs.InWidth s.params →
    exec (.adv n) s = .next (Nat.iterate (fun u : State => { u with
      regs.tickcnt := (u.regs.tickcnt + 1) % 2 ^ u.params.tickW
      regs.mpend := u.regs.mpend ||
        (u.regs.mien && decide ((u.regs.tickcnt + 1) % 2 ^ u.params.tickW = u.regs.matchReg)) }) n s)

/-- An advance may be split at any tick boundary (43_timer_facilities.md section 1). -/
def Obligations.AdvSplits : Prop :=
  ∀ (a b : Nat) (s : State), execAll [.adv a, .adv b] s = exec (.adv (a + b)) s

/-- MSADV, 43_timer_facilities.md R165 (its words are the spec's notation, decision D17): the time advances and wraps,
nothing else changes, advances add up, and an advance can make a sweep tick possible. -/
def Obligations.MsadvAdvancesTheTime : Prop :=
  (∀ n, 1 ≤ n → n < 2 ^ 24 → decode (BitVec.ofNat 32 (0x31000000 + n)) = .op (.msadv n)) ∧
  (∀ (n : Nat) (s : State), exec (.msadv n) s = .next { s with
    regs.msnow := (s.regs.msnow + n) % 2 ^ s.params.msW }) ∧
  (∀ (a b : Nat) (s : State), execAll [.msadv a, .msadv b] s = exec (.msadv (a + b)) s) ∧
  (∀ s : State, Pseudo.mstick.expand s = [.msadv 1]) ∧
  (∃ (s t u : State) (n : Nat), (∃ r, exec .scUpd s = .refused r) ∧ exec (.msadv n) s = .next t ∧
    exec .scUpd t = .next u)

/-! ## Reset, startup, shutdown -/

/-- RESET (44_lifecycle.md section 2): in every state; the start values, every flag 0, the sequencers idle, TICKCNT and
MSNOW as they were, and any value of its width, drawn afresh, in each of the five registers the spec leaves open (RESET
is the spec's own decision D15; the five next free values with their count `nextFree`, log 5, and the list `pwmSeq` of
the values PWMDUTY takes, log 7, are the model's). -/
def Obligations.ResetGivesTheStartState : Prop :=
  decode 0x01000000 = .op .reset ∧
  ∀ s : State,
    s.anyValue 0 s.params.tickW < 2 ^ s.params.tickW ∧ s.anyValue 1 s.params.msW < 2 ^ s.params.msW ∧
    (∀ k ∈ [2, 3, 4], s.anyValue k s.params.wordW < 2 ^ s.params.wordW) ∧
    exec .reset s = .next { s with
      regs := {
        dutyval := 110, dir := .increasing, percnt := 0, matchReg := s.anyValue 0 s.params.tickW
        swdl := s.anyValue 1 s.params.msW, pwmduty := s.anyValue 2 s.params.wordW
        pwmctrl := s.anyValue 3 s.params.wordW, pwmperval := s.anyValue 4 s.params.wordW, mpend := false
        mien := false, swarm := false, clken := false, tickcnt := s.regs.tickcnt, msnow := s.regs.msnow
        fault := .none, initstat := .success, rbdone := false, pgpc := .idle, scpc := .idle, hpc := .idle }
      pwmSeq := s.pwmSeq ++ [s.anyValue 2 s.params.wordW]
      nextFree := s.nextFree + 5 }

/-- The launch state of any instance (70_reset_and_hazards.md section 1): the reset values at any launch values of the
two time bases, nothing run yet; an instance that breaks a constraint is refused. The empty trace, the empty
list of returned values and the list `pwmSeq` of the values PWMDUTY has taken are the model's (log 3, 7). -/
def Obligations.LaunchStateIsTheResetState : Prop :=
  (∀ (p : Config.Params) (t m : Nat), t < 2 ^ p.tickW → m < 2 ^ p.msW → p.Ok →
    ∃ s, State.launch? p t m = some s ∧ s.params = p ∧ s.trace = [] ∧ s.returned = [] ∧ s.pwmSeq = [s.regs.pwmduty] ∧
      s.regs.dutyval = 110 ∧ s.regs.dir = .increasing ∧ s.regs.percnt = 0 ∧ s.regs.mpend = false ∧
      s.regs.mien = false ∧ s.regs.swarm = false ∧ s.regs.clken = false ∧ s.regs.tickcnt = t ∧ s.regs.msnow = m ∧
      s.regs.fault = .none ∧ s.regs.initstat = .success ∧ s.regs.rbdone = false ∧ s.regs.pgpc = .idle ∧
      s.regs.scpc = .idle ∧ s.regs.hpc = .idle) ∧
  (∀ (p : Config.Params) (t m : Nat), ¬p.Ok → State.launch? p t m = none) ∧
  (∃ t m, State.launch? Config.params t m = some State.reset)

/-- After RESET exactly RESET, INIT, SD.DISARM, ADV, MSADV and the four read-back operations are enabled
(70_reset_and_hazards.md section 1). -/
def Obligations.AfterResetOnlyTheHostAndTheTimersMove : Prop :=
  ∀ (s t : State), exec .reset s = .next t → ∀ i : Instr,
    (∃ u, exec i t = .next u) ↔
      (i ∈ [Instr.reset, .init1, .init0, .sdDisarm, .rdduty, .rbOpen, .rbRead] ∨ (∃ n, i = .adv n) ∨
        (∃ n, i = .msadv n) ∨ ∃ len, i = .rbWrite len)

/-- INIT 1 (44_lifecycle.md section 2): from a stopped block; configures the peripheral, gives the start values, arms
the match one period and the sweep 1000 ms from now, returns 0; refused otherwise (what it writes beside DUTYVAL, the
first match and the guard are the spec's own decisions D10, D11, D13). PWMDUTY is any value from here, drawn afresh (the
model's reading of R25, R239 and U3 against section 2, log 18; `nextFree`, `pwmSeq`: log 5, 7). -/
def Obligations.InitOneStartsTheBlock : Prop :=
  decode 0x02000001 = .op .init1 ∧
  (∀ s : State, s.regs.hpc = .idle → s.regs.pgpc = .idle → s.regs.scpc = .idle → s.regs.mien = false →
    s.regs.swarm = false → s.regs.clken = false →
    exec .init1 s = .next { s with
      regs.pwmctrl := s.params.pwmCtrlVal, regs.pwmperval := s.params.pwmPeriodVal, regs.clken := true
      regs.dutyval := 110, regs.dir := .increasing, regs.percnt := 0, regs.mpend := false
      regs.matchReg := (s.regs.tickcnt + s.params.toggleTick) % 2 ^ s.params.tickW, regs.mien := true
      regs.swdl := (s.regs.msnow + 1000) % 2 ^ s.params.msW, regs.swarm := true, regs.initstat := .success
      regs.pwmduty := s.anyValue 0 s.params.wordW, pwmSeq := s.pwmSeq ++ [s.anyValue 0 s.params.wordW]
      returned := s.returned ++ [.initStatus .success], nextFree := s.nextFree + 1 }) ∧
  (∀ s : State, s.anyValue 0 s.params.wordW < 2 ^ s.params.wordW) ∧
  (∀ s : State, ¬(s.regs.hpc = .idle ∧ s.regs.pgpc = .idle ∧ s.regs.scpc = .idle ∧ s.regs.mien = false ∧
    s.regs.swarm = false ∧ s.regs.clken = false) → ∃ r, exec .init1 s = .refused r)

/-- INIT 0 (44_lifecycle.md section 2): from a stopped block; ends stopped with the start values and INITSTAT 1,
returns 1, four registers hold any value of their width, drawn afresh; refused otherwise (the spec's own decision D12).
PWMDUTY is any value too, as after INIT 1 (the model's reading, log 18; `nextFree`, `pwmSeq`: log 5, 7). -/
def Obligations.InitZeroLeavesTheBlockStopped : Prop :=
  decode 0x02000000 = .op .init0 ∧
  (∀ s : State, s.regs.hpc = .idle → s.regs.pgpc = .idle → s.regs.scpc = .idle → s.regs.mien = false →
    s.regs.swarm = false → s.regs.clken = false →
    s.anyValue 2 s.params.tickW < 2 ^ s.params.tickW ∧ s.anyValue 3 s.params.msW < 2 ^ s.params.msW ∧
    (∀ k ∈ [0, 1, 4], s.anyValue k s.params.wordW < 2 ^ s.params.wordW) ∧
      exec .init0 s = .next { s with
        regs.dutyval := 110, regs.dir := .increasing, regs.percnt := 0, regs.mpend := false
        regs.pwmctrl := s.anyValue 0 s.params.wordW, regs.pwmperval := s.anyValue 1 s.params.wordW
        regs.matchReg := s.anyValue 2 s.params.tickW, regs.swdl := s.anyValue 3 s.params.msW
        regs.pwmduty := s.anyValue 4 s.params.wordW, pwmSeq := s.pwmSeq ++ [s.anyValue 4 s.params.wordW]
        regs.initstat := .registrationFailure
        returned := s.returned ++ [.initStatus .registrationFailure], nextFree := s.nextFree + 5 }) ∧
  (∀ s : State, ¬(s.regs.hpc = .idle ∧ s.regs.pgpc = .idle ∧ s.regs.scpc = .idle ∧ s.regs.mien = false ∧
    s.regs.swarm = false ∧ s.regs.clken = false) → ∃ r, exec .init0 s = .refused r)

/-- SD.DISARM (44_lifecycle.md section 2), from any quiescent state, started or stopped (the guard is the spec's own
decision D13). -/
def Obligations.SdDisarmDisarmsTheSweepTimer : Prop :=
  decode 0x03000000 = .op .sdDisarm ∧
  (∀ s : State, s.regs.hpc = .idle → s.regs.pgpc = .idle → s.regs.scpc = .idle →
    exec .sdDisarm s = .next { s with regs.swarm := false, regs.hpc := .sd1 }) ∧
  (∀ s : State, ¬(s.regs.hpc = .idle ∧ s.regs.pgpc = .idle ∧ s.regs.scpc = .idle) →
    ∃ r, exec .sdDisarm s = .refused r)

/-- SD.CLKOFF, 44_lifecycle.md R185 (its word is the spec's notation, decision D17); an invocation may still start after
it. -/
def Obligations.SdClkoffStopsTheClock : Prop :=
  decode 0x04000000 = .op .sdClkoff ∧
  (∀ s : State, s.regs.hpc = .sd1 → s.regs.pgpc = .idle →
    exec .sdClkoff s = .next { s with regs.clken := false, regs.hpc := .sd2 }) ∧
  (∀ s : State, ¬(s.regs.hpc = .sd1 ∧ s.regs.pgpc = .idle) → ∃ r, exec .sdClkoff s = .refused r) ∧
  (∀ s t : State, exec .sdClkoff s = .next t → s.regs.mpend = true → s.regs.mien = true →
    ∃ u, exec .pgAck t = .next u)

/-- SD.MASK, 44_lifecycle.md R186 (its word is the spec's notation, decision D17): the interrupt is masked, a pending
match stays recorded, cannot start an invocation and is cleared by the next INIT; where the lifecycle invariant holds the
block is stopped. -/
def Obligations.SdMaskMasksTheInterrupt : Prop :=
  decode 0x05000000 = .op .sdMask ∧
  (∀ s : State, s.regs.hpc = .sd2 → s.regs.pgpc = .idle →
    exec .sdMask s = .next { s with regs.mien := false, regs.hpc := .idle }) ∧
  (∀ s : State, ¬(s.regs.hpc = .sd2 ∧ s.regs.pgpc = .idle) → ∃ r, exec .sdMask s = .refused r) ∧
  (∀ s t : State, exec .sdMask s = .next t → ∃ r, exec .pgAck t = .refused r) ∧
  (∀ s t : State, LifecycleInvariant s.regs → exec .sdMask s = .next t →
    t.regs.hpc = .idle ∧ t.regs.pgpc = .idle ∧ t.regs.scpc = .idle ∧ t.regs.mien = false ∧ t.regs.swarm = false ∧
      t.regs.clken = false ∧ ∀ i ∈ [Instr.init1, .init0], ∃ u, exec i t = .next u ∧ u.regs.mpend = false)

/-- The whole shutdown from a quiescent state, and a restart after it (44_lifecycle.md section 3): everything else
keeps its value across the shutdown, and INIT 1 then starts again from (110, Increasing, 0). -/
def Obligations.ShutdownThenRestart : Prop :=
  ∀ s : State, s.regs.hpc = .idle → s.regs.pgpc = .idle → s.regs.scpc = .idle →
    execAll (Pseudo.shutdown.expand s) s = .next { s with
      regs.swarm := false, regs.clken := false, regs.mien := false, regs.hpc := .idle } ∧
    ∃ t, execAll (Pseudo.shutdown.expand s ++ [.init1]) s = .next t ∧ t.regs.dutyval = 110 ∧
      t.regs.dir = .increasing ∧ t.regs.percnt = 0 ∧ t.regs.mien = true ∧ t.regs.swarm = true ∧ t.regs.clken = true

/-- Once disarmed with no tick in progress, the sweep stays disarmed under every operation but INIT 1, and no sweep
tick can start (70_reset_and_hazards.md section 3, teardown order; the spec's own decisions D13, D14). -/
def Obligations.DisarmIsFinal : Prop :=
  ∀ (s : State), s.regs.swarm = false → s.regs.scpc = .idle →
    (∃ r, exec .scUpd s = .refused r) ∧
    ∀ (i : Instr) (t : State), i ≠ .init1 → exec i s = .next t → t.regs.swarm = false ∧ t.regs.scpc = .idle

/-! ## Rules of the whole machine -/

/-- An operation steps exactly when its "Enabled when" holds, and no operation stops the block with a fault
(30_encoding.md section 6, 60_exceptions.md section 1; the three-way split is the spec's own decision D16). -/
def Obligations.OperationsStepExactlyWhenEnabled : Prop :=
  ∀ (i : Instr) (s : State), ((∃ t, exec i s = .next t) ↔ Enabled s i) ∧ ∀ f, exec i s ≠ .fault f

/-- Every register is written only by the operations the register table lists (10_state.md section 1 and 9; that RESET
and INIT write the registers they leave at any value is log 12 and 18). -/
def Obligations.OperationsWriteOnlyTheirRegisters : Prop :=
  ∀ (i : Instr) (s t : State) (q : Reg), exec i s = .next t → q ∉ writers i → t.regs.read q = s.regs.read q

/-- What an operation does depends only on the registers the table lists as read or written by it: two states that
agree on those (and on the instance and the free values) step alike (10_state.md section 1). -/
def Obligations.OperationsDependOnlyOnTheirRegisters : Prop :=
  ∀ (i : Instr) (s s' t : State), s'.params = s.params → s'.nextFree = s.nextFree →
    (∀ q ∈ readers i ++ writers i, s'.regs.read q = s.regs.read q) → exec i s = .next t →
    ∃ t', exec i s' = .next t' ∧ (∀ q ∈ writers i, t'.regs.read q = t.regs.read q) ∧
      (∀ out, t.returned = s.returned ++ out → t'.returned = s'.returned ++ out) ∧
      (∀ out, t.pwmSeq = s.pwmSeq ++ out → t'.pwmSeq = s'.pwmSeq ++ out)

/-- What no operation touches (the instance and the rest of the trace), and what each returns: INIT the status it
records, RDDUTY and RB.READ one value unless they record a violation, RB.WRITE accepted, every other nothing; PG.OUT,
RESET and INIT extend the sequence of output values by the value PWMDUTY then holds, no other operation does
(30_encoding.md section 6; the lists are the model's, log 1, 3, 7; INIT's entry is log 18). -/
def Obligations.OperationsReturnWhatTheSpecSays : Prop :=
  ∀ (i : Instr) (s t : State), exec i s = .next t →
    t.params = s.params ∧ t.trace = s.trace ∧
    (i ∉ [Instr.pgOut, .reset, .init1, .init0] → t.pwmSeq = s.pwmSeq) ∧
    (i ∈ [Instr.pgOut, .reset, .init1, .init0] → t.pwmSeq = s.pwmSeq ++ [t.regs.pwmduty]) ∧
    ((i = .init1 ∨ i = .init0) → t.returned = s.returned ++ [.initStatus t.regs.initstat]) ∧
    (i = .rdduty → s.regs.dutyval ∈ [110, 170, 230, 290, 350, 410, 470] →
      t.returned = s.returned ++ [.duty s.regs.dutyval]) ∧
    (i = .rdduty → s.regs.dutyval ∉ [110, 170, 230, 290, 350, 410, 470] → t.returned = s.returned) ∧
    (i = .rbRead → (s.regs.rbdone = true ∨ s.regs.dutyval ∈ [110, 170, 230, 290, 350, 410, 470]) →
      ∃ label, t.returned = s.returned ++ [.text label]) ∧
    (i = .rbRead → s.regs.rbdone = false → s.regs.dutyval ∉ [110, 170, 230, 290, 350, 410, 470] →
      t.returned = s.returned) ∧
    (∀ len, i = .rbWrite len → t.returned = s.returned ++ [.accepted]) ∧
    ((∀ len, i ≠ .rbWrite len) → i ∉ [Instr.init1, .init0, .rdduty, .rbRead] → t.returned = s.returned)

/-- The successor table of the three sequencers, complete (40_pulse_generator.md section 4). -/
def Obligations.PhasesFollowTheSuccessorTable : Prop :=
  ∀ (i : Instr) (s t : State), exec i s = .next t → t.regs.phases = phasesAfter s i

/-- Priority as guards (20_memory.md section 5, 60_exceptions.md section 3): inside an invocation no sweep operation, no
INIT and no SD operation is taken, one PG operation always can be, and only PG.OUT ends the invocation, or RESET, which
abandons it; inside a sweep tick no INIT and no SD operation is taken (for SD.CLKOFF and SD.MASK, whose own rules do not
test SCPC, by the lifecycle invariant; log 10); an asserted match starts an invocation from every idle PG phase, whatever
the other sequencers do (the spec's own decision D22). -/
def Obligations.NoSweepInitOrShutdownInsideAnInvocation : Prop :=
  (∀ s : State, s.regs.pgpc ≠ .idle → ∀ i ∈ [Instr.scUpd, .scBnd, .scArm, .init1, .init0, .sdDisarm, .sdClkoff, .sdMask],
    ∃ r, exec i s = .refused r) ∧
  (∀ s : State, s.regs.pgpc ≠ .idle → ∃ i ∈ [Instr.pgRearm, .pgChk, .pgOut], ∃ t, exec i s = .next t) ∧
  (∀ (s t : State) (i : Instr), s.regs.pgpc ≠ .idle → exec i s = .next t → t.regs.pgpc = .idle →
    i = .pgOut ∨ i = .reset) ∧
  (∀ s : State, s.regs.scpc ≠ .idle → ∀ i ∈ [Instr.init1, .init0, .sdDisarm], ∃ r, exec i s = .refused r) ∧
  (∀ s : State, LifecycleInvariant s.regs → s.regs.scpc ≠ .idle → ∀ i ∈ [Instr.sdClkoff, .sdMask],
    ∃ r, exec i s = .refused r) ∧
  (∀ s : State, s.regs.pgpc = .idle → s.regs.mpend = true → s.regs.mien = true → ∃ t, exec .pgAck s = .next t)

/-- FAULT changes only by RDDUTY and RB.READ on a value outside the domain, from none to the violation, and by RESET
(60_exceptions.md section 1; the sticky register is the spec's own decision D16). -/
def Obligations.FaultIsStickyAndRaisedOnlyAtReadback : Prop :=
  ∀ (i : Instr) (s t : State), exec i s = .next t →
    t.regs.fault = s.regs.fault ∨ (i = .reset ∧ t.regs.fault = .none) ∨
    ((i = .rdduty ∨ i = .rbRead) ∧ s.regs.dutyval ∉ [110, 170, 230, 290, 350, 410, 470] ∧ s.regs.fault = .none ∧
      t.regs.fault = .invariantViolation)

/-! ## Invariants that every step keeps -/

/-- The duty invariant of 10_state.md section 9, kept by every step of an instance that meets the constraints. -/
def Obligations.EveryStepKeepsTheDutyInvariant : Prop :=
  ∀ s t : State, s.params.Ok → DutyInvariant s.regs → step s = .next t → t.params.Ok ∧ DutyInvariant t.regs

/-- The duty invariant holds at reset. -/
def Obligations.ResetMeetsTheDutyInvariant : Prop :=
  State.reset.params.Ok ∧ DutyInvariant State.reset.regs

/-- Under the duty invariant no step records a fault (60_exceptions.md section 1: the violation is unreachable). -/
def Obligations.EveryStepStaysSafe : Prop :=
  ∀ s t : State, DutyInvariant s.regs → s.Safe → step s = .next t → t.Safe

/-- The lifecycle invariant is kept by every step (60_exceptions.md section 5, 40_pulse_generator.md section 2): a
handler runs only while started, a tick in progress has disarmed its timer, the clock is off under an unmasked
interrupt only between SD.CLKOFF and SD.MASK. -/
def Obligations.EveryStepKeepsTheLifecycleInvariant : Prop :=
  ∀ s t : State, LifecycleInvariant s.regs → step s = .next t → LifecycleInvariant t.regs

/-- The lifecycle invariant holds at reset. -/
def Obligations.ResetMeetsTheLifecycleInvariant : Prop := LifecycleInvariant State.reset.regs

/-- Every register keeps within its width under every step (00_scope.md section 6, numbers and bits; the widths are
parameters, log 1). -/
def Obligations.EveryStepKeepsRegistersInWidth : Prop :=
  ∀ s t : State, s.params.Ok → s.regs.InWidth s.params → step s = .next t → t.regs.InWidth t.params

/-- Every register is within its width at reset, the free values included. -/
def Obligations.ResetRegistersAreInWidth : Prop := State.reset.regs.InWidth State.reset.params

/-! ## Whole invocations and whole sweep ticks -/

/-- One uninterrupted sweep tick on each of the twelve pairs (41_sweep_controller.md section 3). -/
def Obligations.SweepTickFollowsTheTable : Prop :=
  ∀ (s : State) (D D' : Nat) (d d' : Direction),
    ((D, d), (D', d')) ∈ [((110, Direction.increasing), (170, Direction.increasing)),
      ((170, .increasing), (230, .increasing)), ((230, .increasing), (290, .increasing)),
      ((290, .increasing), (350, .increasing)), ((350, .increasing), (410, .increasing)),
      ((410, .increasing), (470, .decreasing)), ((470, .decreasing), (410, .decreasing)),
      ((410, .decreasing), (350, .decreasing)), ((350, .decreasing), (290, .decreasing)),
      ((290, .decreasing), (230, .decreasing)), ((230, .decreasing), (170, .decreasing)),
      ((170, .decreasing), (110, .increasing))] →
    s.params.Ok → s.regs.dutyval = D → s.regs.dir = d → s.regs.scpc = .idle → s.regs.pgpc = .idle →
    s.regs.swarm = true → 0 ≤ sdiffW s.params.msW s.regs.msnow s.regs.swdl →
    execAll (Pseudo.sweep.expand s) s = .next { s with
      regs.dutyval := D', regs.dir := d', regs.swdl := addW s.params.msW s.regs.msnow 1000, regs.swarm := true
      regs.scpc := .idle }

/-- Six sweep ticks 1000 ms apart go from the left end to the right end and flip the direction, twelve come back
(41_sweep_controller.md section 3, the periodicity law). -/
def Obligations.SweepReturnsAfterTwelveTicks : Prop :=
  ∀ s : State, s.params.Ok → s.regs.dutyval = 110 → s.regs.dir = .increasing → s.regs.scpc = .idle →
    s.regs.pgpc = .idle → s.regs.swarm = true → s.regs.swdl = addW s.params.msW s.regs.msnow 1000 →
    (∃ t, execAll (List.replicate 6 [Instr.msadv 1000, .scUpd, .scBnd, .scArm]).flatten s = .next t ∧
      t.regs.dutyval = 470 ∧ t.regs.dir = .decreasing) ∧
    execAll (List.replicate 12 [Instr.msadv 1000, .scUpd, .scBnd, .scArm]).flatten s = .next { s with
      regs.msnow := addW s.params.msW s.regs.msnow 12000
      regs.swdl := addW s.params.msW s.regs.msnow 13000 }

/-- One invocation with TICKCNT standing still (40_pulse_generator.md section 3): the number of iterations, the end
state, and MATCH more than 8 ticks ahead at the end, provided the signed distance does not wrap. `pwmSeq` is the
model's list of output values (log 7). -/
def Obligations.InvocationWithTheTickStandingStill : Prop :=
  ∀ (s : State) (k : Nat), s.params.Ok → s.regs.pgpc = .idle → s.regs.mpend = true → s.regs.mien = true →
    s.regs.clken = true →
    (k : Int) = max 1 ((8 - sdiffW s.params.tickW s.regs.matchReg s.regs.tickcnt) / (s.params.toggleTick : Int) + 1) →
    sdiffW s.params.tickW s.regs.matchReg s.regs.tickcnt + k * s.params.toggleTick < (2 : Int) ^ (s.params.tickW - 1) →
    Pseudo.irq.expand s = .pgAck :: (List.replicate k [Instr.pgRearm, .pgChk]).flatten ++ [.pgOut] ∧
    execAll (Pseudo.irq.expand s) s = .next { s with
      regs.mpend := false
      regs.matchReg := addW s.params.tickW s.regs.matchReg (k * s.params.toggleTick)
      regs.percnt := addW s.params.cntW s.regs.percnt k
      regs.pwmduty := if (s.regs.percnt + k) % 4 = 3 then s.regs.dutyval else 0
      regs.pgpc := .idle
      pwmSeq := s.pwmSeq ++ [if (s.regs.percnt + k) % 4 = 3 then s.regs.dutyval else 0] } ∧
    8 < sdiffW s.params.tickW (addW s.params.tickW s.regs.matchReg (k * s.params.toggleTick)) s.regs.tickcnt

/-- The catch-up loop ends under ENV_LOOP (40_pulse_generator.md section 3): when fewer than TOGGLE_TICK ticks fall
between consecutive tests, however they fall, the loop is left after at most 9 minus the starting distance iterations
(at least one), with MATCH more than 8 ticks ahead, provided the first re-arm does not pass the wrap horizon. -/
def Obligations.CatchUpLoopEndsUnderEnvLoop : Prop :=
  ∀ (s : State) (gaps : List (Nat × Nat)), s.params.Ok → s.regs.pgpc = .rearm →
    (∀ g ∈ gaps, g.1 + g.2 < s.params.toggleTick) → gaps ≠ [] →
    8 - sdiffW s.params.tickW s.regs.matchReg s.regs.tickcnt < gaps.length →
    sdiffW s.params.tickW s.regs.matchReg s.regs.tickcnt + s.params.toggleTick < (2 : Int) ^ (s.params.tickW - 1) →
    ∃ n t, n ≤ gaps.length ∧ execAll (loopOps (gaps.take n)) s = .next t ∧ t.regs.pgpc = .out ∧
      8 < sdiffW t.params.tickW t.regs.matchReg t.regs.tickcnt

/-- The gate law (40_pulse_generator.md section 3): over four periods on schedule, each served by one iteration, the
duty value is written exactly once and 0 three times, at every value of the period counter: at the count of phase 3; the
schedule is kept. `pwmSeq` is the model's list of output values (log 7). -/
def Obligations.FourPeriodsEmitOnePulse : Prop :=
  ∀ s : State, s.params.Ok → s.regs.pgpc = .idle → s.regs.mien = true → s.regs.clken = true →
    s.regs.matchReg = addW s.params.tickW s.regs.tickcnt s.params.toggleTick →
    ∃ t j, execAll (List.replicate 4 [Instr.adv s.params.toggleTick, .pgAck, .pgRearm, .pgChk, .pgOut]).flatten s
        = .next t ∧
      j < 4 ∧ (s.regs.percnt + j + 1) % 4 = 3 ∧
      t.pwmSeq = s.pwmSeq ++ (List.range 4).map (fun n => if n = j then s.regs.dutyval else 0) ∧
      t.regs.matchReg = addW s.params.tickW t.regs.tickcnt s.params.toggleTick ∧
      t.regs.percnt = addW s.params.cntW s.regs.percnt 4 ∧ t.regs.dutyval = s.regs.dutyval

/-- Old or new duty value (20_memory.md section 5): with both triggers pending and one iteration enough, the invocation
may come after SC.UPD or before it; the two runs end alike but for the output, which carries the new value in the first
and the old in the second (the spec's own decisions D21, D22; `pwmSeq` is the model's, log 7). -/
def Obligations.OrderOfTheTriggersShowsOnlyInTheOutput : Prop :=
  ∀ s : State, s.params.Ok → s.regs.pgpc = .idle → s.regs.scpc = .idle → s.regs.mpend = true → s.regs.mien = true →
    s.regs.clken = true → s.regs.swarm = true → 0 ≤ sdiffW s.params.msW s.regs.msnow s.regs.swdl →
    8 < sdiffW s.params.tickW (addW s.params.tickW s.regs.matchReg s.params.toggleTick) s.regs.tickcnt →
    ∃ t u, execAll [.scUpd, .pgAck, .pgRearm, .pgChk, .pgOut, .scBnd, .scArm] s = .next t ∧
      execAll [.pgAck, .pgRearm, .pgChk, .pgOut, .scUpd, .scBnd, .scArm] s = .next u ∧
      t = { u with regs.pwmduty := t.regs.pwmduty, pwmSeq := t.pwmSeq } ∧
      t.regs.pwmduty = (if (s.regs.percnt + 1) % 4 = 3 then t.regs.dutyval else 0) ∧
      u.regs.pwmduty = (if (s.regs.percnt + 1) % 4 = 3 then s.regs.dutyval else 0)

/-! ## The text form -/

/-- The text form (30_encoding.md section 5, the spec's own decision D18): the operands of the three operations that
take a number, written in decimal, read back as the number, and lines of the section's own kind; that a line with an
operand no word encodes is no line of a trace is the model's choice (the last clause; log 13). -/
def Obligations.TextFormReadsOperands : Prop :=
  (∀ n, 1 ≤ n → n < 2 ^ 24 → parseLine ("ADV ".toList ++ Nat.toDigits 10 n) = .item (.op (.adv n)) ∧
    parseLine ("MSADV ".toList ++ Nat.toDigits 10 n) = .item (.op (.msadv n))) ∧
  (∀ n, n < 2 ^ 24 → parseLine ("RB.WRITE ".toList ++ Nat.toDigits 10 n) = .item (.op (.rbWrite n))) ∧
  parseLine "ADV 0x3E8 ; one period".toList = .item (.op (.adv 1000)) ∧
  parseLine "INIT 1".toList = .item (.op .init1) ∧
  parseLine "SWEEP".toList = .item (.pseudo .sweep) ∧
  parseLine "; a comment".toList = .blank ∧
  parseLine "ADV 0".toList = .bad

/-! ## The sequence of output values -/

/-- The sequence of output values ends in the value PWMDUTY holds, after every step: no value the output takes is left
out (10_state.md section 2, 30_encoding.md section 6; the list is the model's, log 7). -/
def Obligations.EveryStepRecordsTheOutput : Prop :=
  ∀ s t : State, s.OutputRecorded → step s = .next t → t.OutputRecorded

/-- The sequence of output values ends in the value PWMDUTY holds, at reset (log 7; that value is log 6). -/
def Obligations.ResetRecordsTheOutput : Prop := State.reset.OutputRecorded
end

