-- ==== Sys2Proof/Laws/Arith.lean ====
section
/-! SUPPORT. Small facts of the arithmetic primitives (00_scope.md R9), of the widths and of the conditions. -/
namespace Sys2Proof.Machine

theorem addW_lt (w a b : Nat) : addW w a b < 2 ^ w := Nat.mod_lt _ (Nat.two_pow_pos w)

theorem subW_lt (w a b : Nat) : subW w a b < 2 ^ w := Nat.mod_lt _ (Nat.two_pow_pos w)

theorem anyValue_lt (k w : Nat) : Config.anyValue k w < 2 ^ w := Nat.mod_lt _ (Nat.two_pow_pos w)

theorem State.anyValue_lt (s : State) (k w : Nat) : s.anyValue k w < 2 ^ w := Machine.anyValue_lt _ w

@[simp] theorem addW_zero (w a : Nat) (h : a < 2 ^ w) : addW w a 0 = a := Nat.mod_eq_of_lt h

theorem addW_of_lt {w a b : Nat} (h : a + b < 2 ^ w) : addW w a b = a + b := Nat.mod_eq_of_lt h

theorem addW_addW (w a b c : Nat) : addW w (addW w a b) c = addW w a (b + c) := by
  simp [addW, Nat.add_assoc]

theorem subW_of_le {w a b : Nat} (ha : a < 2 ^ w) (hb : b ≤ a) : subW w a b = a - b := by
  have : a + (2 ^ w - b) = (a - b) + 2 ^ w := by omega
  rw [subW, Nat.mod_eq_of_lt (by omega : b < 2 ^ w), this, Nat.add_mod_right, Nat.mod_eq_of_lt (by omega)]

/-- Nine bits hold every duty value (00_scope.md R6). -/
theorem two_pow_wordW_ge {p : Config.Params} (h : p.Ok) : 512 ≤ 2 ^ p.wordW :=
  Nat.pow_le_pow_right (n := 2) (by decide) h.1

/-- The read of a register that is a flag or a phase is within its width whatever its value. -/
theorem toNat_bool_lt (b : Bool) : b.toNat < 2 ^ 1 := by cases b <;> decide

theorem Direction.code_lt (d : Direction) : d.code < 2 ^ 1 := by cases d <;> decide
theorem FaultCode.code_lt (c : FaultCode) : c.code < 2 ^ 2 := by cases c <;> decide
theorem InitStatus.code_lt (c : InitStatus) : c.code < 2 ^ 1 := by cases c <;> decide
theorem PgPhase.code_lt (c : PgPhase) : c.code < 2 ^ 2 := by cases c <;> decide
theorem ScPhase.code_lt (c : ScPhase) : c.code < 2 ^ 2 := by cases c <;> decide
theorem HostPhase.code_lt (c : HostPhase) : c.code < 2 ^ 2 := by cases c <;> decide

/-- The registers that can leave their width are the nine unsigned numbers. -/
theorem Regs.inWidth_iff (p : Config.Params) (r : Regs) : r.InWidth p ↔
    r.dutyval < 2 ^ p.wordW ∧ r.percnt < 2 ^ p.cntW ∧ r.matchReg < 2 ^ p.tickW ∧ r.swdl < 2 ^ p.msW ∧
    r.pwmduty < 2 ^ p.wordW ∧ r.pwmctrl < 2 ^ p.wordW ∧ r.pwmperval < 2 ^ p.wordW ∧
    r.tickcnt < 2 ^ p.tickW ∧ r.msnow < 2 ^ p.msW := by
  constructor
  · intro h
    exact ⟨h .DUTYVAL, h .PERCNT, h .MATCH, h .SWDL, h .PWMDUTY, h .PWMCTRL, h .PWMPERVAL, h .TICKCNT, h .MSNOW⟩
  · rintro ⟨h0, h2, h3, h4, h5, h6, h7, h12, h13⟩ q
    cases q with
    | DUTYVAL => exact h0
    | DIR => exact r.dir.code_lt
    | PERCNT => exact h2
    | MATCH => exact h3
    | SWDL => exact h4
    | PWMDUTY => exact h5
    | PWMCTRL => exact h6
    | PWMPERVAL => exact h7
    | TICKCNT => exact h12
    | MSNOW => exact h13
    | FAULT => exact r.fault.code_lt
    | INITSTAT => exact r.initstat.code_lt
    | PGPC => exact r.pgpc.code_lt
    | SCPC => exact r.scpc.code_lt
    | HPC => exact r.hpc.code_lt
    | MPEND | MIEN | SWARM | CLKEN | RBDONE => exact toNat_bool_lt _

/-- The angle table is total on the duty domain and nowhere else (42_readback.md R140). -/
theorem angleText_isSome_iff (v : Nat) : (angleText v).isSome ↔ InDutyDomain v := by
  unfold angleText
  split <;> simp_all

end Sys2Proof.Machine
end

