-- ==== Sys2Proof/Laws/State.lean ====
section
/-! SUPPORT. What each update of the shared operations leaves of each field. -/
namespace Sys2Proof.Machine
variable (s : State) (o : Output) (v n nb w : Nat)

/-! ## State.emit -/
@[simp] theorem State.emit_params : (s.emit o).params = s.params := rfl
@[simp] theorem State.emit_regs : (s.emit o).regs = s.regs := rfl
@[simp] theorem State.emit_trace : (s.emit o).trace = s.trace := rfl
@[simp] theorem State.emit_returned : (s.emit o).returned = s.returned ++ [o] := rfl
@[simp] theorem State.emit_pwmSeq : (s.emit o).pwmSeq = s.pwmSeq := rfl
@[simp] theorem State.emit_nextFree : (s.emit o).nextFree = s.nextFree := rfl

/-! ## State.writePwmDuty -/
@[simp] theorem State.writePwmDuty_params : (s.writePwmDuty v).params = s.params := rfl
@[simp] theorem State.writePwmDuty_regs : (s.writePwmDuty v).regs = { s.regs with pwmduty := v } := rfl
@[simp] theorem State.writePwmDuty_trace : (s.writePwmDuty v).trace = s.trace := rfl
@[simp] theorem State.writePwmDuty_returned : (s.writePwmDuty v).returned = s.returned := rfl
@[simp] theorem State.writePwmDuty_pwmSeq : (s.writePwmDuty v).pwmSeq = s.pwmSeq ++ [v] := rfl
@[simp] theorem State.writePwmDuty_nextFree : (s.writePwmDuty v).nextFree = s.nextFree := rfl

/-! ## State.drew -/
@[simp] theorem State.drew_params : (s.drew n).params = s.params := rfl
@[simp] theorem State.drew_regs : (s.drew n).regs = s.regs := rfl
@[simp] theorem State.drew_trace : (s.drew n).trace = s.trace := rfl
@[simp] theorem State.drew_returned : (s.drew n).returned = s.returned := rfl
@[simp] theorem State.drew_pwmSeq : (s.drew n).pwmSeq = s.pwmSeq := rfl
@[simp] theorem State.drew_nextFree : (s.drew n).nextFree = s.nextFree + n := rfl

/-! ## State.raiseInvariantViolation -/
@[simp] theorem State.raise_params : s.raiseInvariantViolation.params = s.params := rfl
@[simp] theorem State.raise_trace : s.raiseInvariantViolation.trace = s.trace := rfl
@[simp] theorem State.raise_returned : s.raiseInvariantViolation.returned = s.returned := rfl
@[simp] theorem State.raise_pwmSeq : s.raiseInvariantViolation.pwmSeq = s.pwmSeq := rfl
@[simp] theorem State.raise_nextFree : s.raiseInvariantViolation.nextFree = s.nextFree := rfl

/-- After the exception FAULT holds the violation, whatever it held, and every other register its value
(60_exceptions.md R201). -/
@[simp] theorem State.raise_regs :
    s.raiseInvariantViolation.regs = { s.regs with fault := .invariantViolation } := by
  cases h : s.regs.fault <;> simp [State.raiseInvariantViolation, h]

/-! ## State.withFetchWord -/
@[simp] theorem State.withFetchWord_params : (s.withFetchWord nb w).params = s.params := rfl
@[simp] theorem State.withFetchWord_regs : (s.withFetchWord nb w).regs = s.regs := rfl
@[simp] theorem State.withFetchWord_trace : (s.withFetchWord nb w).trace = tableWord nb w :: s.trace := rfl
@[simp] theorem State.withFetchWord_returned : (s.withFetchWord nb w).returned = s.returned := rfl
@[simp] theorem State.withFetchWord_pwmSeq : (s.withFetchWord nb w).pwmSeq = s.pwmSeq := rfl
@[simp] theorem State.withFetchWord_nextFree : (s.withFetchWord nb w).nextFree = s.nextFree := rfl

/-! ## State.launch -/
variable (p : Config.Params) (t m : Nat)
@[simp] theorem State.launch_params : (State.launch p t m).params = p := rfl
@[simp] theorem State.launch_regs : (State.launch p t m).regs = Regs.atReset p t m := rfl
@[simp] theorem State.launch_trace : (State.launch p t m).trace = [] := rfl
@[simp] theorem State.launch_returned : (State.launch p t m).returned = [] := rfl
@[simp] theorem State.launch_pwmSeq : (State.launch p t m).pwmSeq = [(State.launch p t m).regs.pwmduty] := rfl
@[simp] theorem State.launch_nextFree : (State.launch p t m).nextFree = 5 := rfl

end Sys2Proof.Machine
end

