-- ==== Sys2Proof/Laws/Ops.lean ====
section
/-! SUPPORT. Everything each shared operation can do, said once: a guarded step, operations in order, one word. -/
namespace Sys2Proof.Machine

/-- A guarded step answers a next state exactly when its guard holds, and then that one. -/
theorem guarded_eq_next_iff {i : Instr} {g : Prop} [Decidable g] {t u : State} :
    guarded i g t = .next u ↔ g ∧ t = u := by
  unfold guarded; split <;> simp_all

theorem guarded_of_pos {i : Instr} {g : Prop} [Decidable g] {t : State} (h : g) : guarded i g t = .next t := if_pos h

theorem guarded_of_neg {i : Instr} {g : Prop} [Decidable g] {t : State} (h : ¬g) :
    guarded i g t = .refused (guardRefusal i) := if_neg h

/-- A guarded step is refused exactly when its guard fails, under the name its agent gives (00_scope.md R11). -/
theorem guarded_eq_refused_iff {i : Instr} {g : Prop} [Decidable g] {t : State} {r : Refusal} :
    guarded i g t = .refused r ↔ ¬g ∧ guardRefusal i = r := by
  unfold guarded; split <;> simp_all

theorem guarded_ne_fault {i : Instr} {g : Prop} [Decidable g] {t : State} {f : Fault} : guarded i g t ≠ .fault f := by
  unfold guarded; split <;> simp

@[simp] theorem execAll_nil (s : State) : execAll [] s = .next s := rfl

theorem execAll_cons_of_next {i : Instr} {is : List Instr} {s t : State} (h : exec i s = .next t) :
    execAll (i :: is) s = execAll is t := by simp [execAll, h]

theorem execAll_cons_eq_next_iff {i : Instr} {is : List Instr} {s u : State} :
    execAll (i :: is) s = .next u ↔ ∃ t, exec i s = .next t ∧ execAll is t = .next u := by
  cases h : exec i s <;> simp [execAll, h]

/-- Operations in order compose: the second list runs where the first ended. -/
theorem execAll_append_of_next {is js : List Instr} {s t : State} (h : execAll is s = .next t) :
    execAll (is ++ js) s = execAll js t := by
  induction is generalizing s with
  | nil => cases h; rfl
  | cons i is ih =>
    obtain ⟨u, hu, hrest⟩ := execAll_cons_eq_next_iff.1 h
    rw [List.cons_append, execAll_cons_of_next hu, ih hrest]

theorem execWord_of_op {w : OpWord} {i : Instr} (h : decode w = .op i) (s : State) : execWord w s = exec i s := by
  simp [execWord, h]

/-- A step that answers a next state took the operation the first word decodes to (30_encoding.md R89). -/
theorem step_eq_next_cases {s t : State} (h : step s = .next t) :
    ∃ w rest i, s.trace = w :: rest ∧ decode w = .op i ∧ exec i { s with trace := rest } = .next t := by
  unfold step at h
  split at h
  · cases h
  · rename_i w rest hw
    unfold execWord at h
    split at h
    · exact ⟨w, rest, _, hw, ‹_›, h⟩
    · cases h

end Sys2Proof.Machine
end

