-- ==== Sys2Proof/Laws/Meanings.lean ====
section
/-! SUPPORT. One inversion lemma per operation: if it answers a next state, its guard held and the next state is this
one. The operations that are always enabled answer a next state by definition. -/
namespace Sys2Proof.Machine
variable {s t : State}

theorem exec_init1_next (h : exec .init1 s = .next t) :
    Stopped s.regs ∧ t.params = s.params ∧ t.regs = { s.regs with
      pwmctrl := s.params.pwmCtrlVal, pwmperval := s.params.pwmPeriodVal, clken := true, dutyval := 110
      dir := .increasing, percnt := 0, mpend := false
      matchReg := addW s.params.tickW s.regs.tickcnt s.params.toggleTick, mien := true
      swdl := addW s.params.msW s.regs.msnow 1000, swarm := true, initstat := .success
      pwmduty := s.anyValue 0 s.params.wordW } := by
  obtain ⟨hg, rfl⟩ := guarded_eq_next_iff.1 h
  exact ⟨hg, rfl, rfl⟩

theorem exec_init0_next (h : exec .init0 s = .next t) :
    Stopped s.regs ∧ t.params = s.params ∧ t.regs = { s.regs with
      dutyval := 110, dir := .increasing, percnt := 0, swarm := false, clken := false, mien := false, mpend := false
      pwmctrl := s.anyValue 0 s.params.wordW, pwmperval := s.anyValue 1 s.params.wordW
      matchReg := s.anyValue 2 s.params.tickW, swdl := s.anyValue 3 s.params.msW
      initstat := .registrationFailure, pwmduty := s.anyValue 4 s.params.wordW } := by
  obtain ⟨hg, rfl⟩ := guarded_eq_next_iff.1 h
  exact ⟨hg, rfl, rfl⟩

theorem exec_sdDisarm_next (h : exec .sdDisarm s = .next t) :
    Quiescent s.regs ∧ t = { s with regs.swarm := false, regs.hpc := .sd1 } := by
  obtain ⟨hg, rfl⟩ := guarded_eq_next_iff.1 h
  exact ⟨hg, rfl⟩

theorem exec_sdClkoff_next (h : exec .sdClkoff s = .next t) :
    (s.regs.hpc = .sd1 ∧ s.regs.pgpc = .idle) ∧ t = { s with regs.clken := false, regs.hpc := .sd2 } := by
  obtain ⟨hg, rfl⟩ := guarded_eq_next_iff.1 h
  exact ⟨hg, rfl⟩

theorem exec_sdMask_next (h : exec .sdMask s = .next t) :
    (s.regs.hpc = .sd2 ∧ s.regs.pgpc = .idle) ∧ t = { s with regs.mien := false, regs.hpc := .idle } := by
  obtain ⟨hg, rfl⟩ := guarded_eq_next_iff.1 h
  exact ⟨hg, rfl⟩

theorem exec_pgAck_next (h : exec .pgAck s = .next t) :
    (s.regs.pgpc = .idle ∧ MatchAsserted s.regs) ∧ t = { s with regs.mpend := false, regs.pgpc := .rearm } := by
  obtain ⟨hg, rfl⟩ := guarded_eq_next_iff.1 h
  exact ⟨hg, rfl⟩

theorem exec_pgRearm_next (h : exec .pgRearm s = .next t) :
    s.regs.pgpc = .rearm ∧ t = { s with
      regs.matchReg := addW s.params.tickW s.regs.matchReg s.params.toggleTick
      regs.percnt := addW s.params.cntW s.regs.percnt 1
      regs.pgpc := .chk } := by
  obtain ⟨hg, rfl⟩ := guarded_eq_next_iff.1 h
  exact ⟨hg, rfl⟩

theorem exec_pgChk_next (h : exec .pgChk s = .next t) :
    s.regs.pgpc = .chk ∧
      t = { s with regs.pgpc := if DueWithinSlack s.params s.regs then .rearm else .out } := by
  obtain ⟨hg, rfl⟩ := guarded_eq_next_iff.1 h
  exact ⟨hg, rfl⟩

/-- PG.OUT writes the gated duty when the clock is on, the next free value when it is off. -/
theorem exec_pgOut_next (h : exec .pgOut s = .next t) :
    s.regs.pgpc = .out ∧ ∃ v n, t = { s with
      regs.pwmduty := v, regs.pgpc := .idle, pwmSeq := s.pwmSeq ++ [v], nextFree := n } ∧
      (s.regs.clken = true → v = gatedDuty s.regs ∧ n = s.nextFree) ∧
      (s.regs.clken = false → v = s.anyValue 0 s.params.wordW ∧ n = s.nextFree + 1) := by
  obtain ⟨hg, rfl⟩ := guarded_eq_next_iff.1 h
  refine ⟨hg, ?_⟩
  cases hc : s.regs.clken
  · exact ⟨s.anyValue 0 s.params.wordW, s.nextFree + 1, by simp, by simp, fun _ => ⟨rfl, rfl⟩⟩
  · exact ⟨gatedDuty s.regs, s.nextFree, by simp, fun _ => ⟨rfl, rfl⟩, by simp⟩

theorem exec_scUpd_next (h : exec .scUpd s = .next t) :
    (s.regs.scpc = .idle ∧ s.regs.pgpc = .idle ∧ SweepExpired s.params s.regs) ∧ t = { s with
      regs.swarm := false, regs.dutyval := nextDuty s.params s.regs, regs.scpc := .bnd } := by
  obtain ⟨hg, rfl⟩ := guarded_eq_next_iff.1 h
  exact ⟨hg, rfl⟩

theorem exec_scBnd_next (h : exec .scBnd s = .next t) :
    (s.regs.scpc = .bnd ∧ s.regs.pgpc = .idle) ∧
      t = { s with regs.dir := boundaryDir s.regs, regs.scpc := .arm } := by
  obtain ⟨hg, rfl⟩ := guarded_eq_next_iff.1 h
  exact ⟨hg, rfl⟩

theorem exec_scArm_next (h : exec .scArm s = .next t) :
    (s.regs.scpc = .arm ∧ s.regs.pgpc = .idle) ∧ t = { s with
      regs.swdl := addW s.params.msW s.regs.msnow 1000, regs.swarm := true, regs.scpc := .idle } := by
  obtain ⟨hg, rfl⟩ := guarded_eq_next_iff.1 h
  exact ⟨hg, rfl⟩

/-- RDDUTY either returns the value or records the violation. -/
theorem exec_rdduty_next (h : exec .rdduty s = .next t) :
    (InDutyDomain s.regs.dutyval ∧ t = s.emit (.duty s.regs.dutyval)) ∨
      (¬InDutyDomain s.regs.dutyval ∧ t = s.raiseInvariantViolation) := by
  have h' : (if InDutyDomain s.regs.dutyval then s.emit (.duty s.regs.dutyval) else s.raiseInvariantViolation) = t :=
    Host.Outcome.next.inj h
  split at h'
  · exact .inl ⟨‹_›, h'.symm⟩
  · exact .inr ⟨‹_›, h'.symm⟩

/-- RB.READ either returns the empty string, or the label (and the session is read), or records the violation. -/
theorem exec_rbRead_next (h : exec .rbRead s = .next t) :
    (s.regs.rbdone = true ∧ t = s.emit (.text [])) ∨
    (s.regs.rbdone = false ∧ ∃ cs, angleText s.regs.dutyval = some cs ∧
      t = { s with regs.rbdone := true }.emit (.text cs)) ∨
    (s.regs.rbdone = false ∧ ¬InDutyDomain s.regs.dutyval ∧ t = s.raiseInvariantViolation) := by
  simp only [exec, execRbRead, Host.Outcome.next.injEq] at h
  split at h
  · exact .inl ⟨‹_›, h.symm⟩
  · rename_i hd
    have hd' : s.regs.rbdone = false := by simpa using hd
    split at h
    · exact .inr (.inl ⟨hd', _, ‹_›, h.symm⟩)
    · rename_i hn
      refine .inr (.inr ⟨hd', fun hin => ?_, h.symm⟩)
      have := (angleText_isSome_iff _).2 hin
      simp [hn] at this

end Sys2Proof.Machine
end

