-- ==== Sys2Proof/Laws/PerInstr.lean ====
section
/-! SUPPORT. Family EncodingRow: the word of every operation has the match of its row of the opcode table under the
row's mask (30_encoding.md R83). -/
namespace Sys2Proof.Laws.EncodingRow

/-- Under its row's mask, the word of an operation is its row's match. -/
def Statement (i : Instr) : Prop := encode i &&& i.rowMask = i.rowMatch

/-- A word's upper eight bits are kept by the mask of a row with a free immediate. -/
theorem masked_append (a : BitVec 8) (b : BitVec 24) :
    (a ++ b : BitVec 32) &&& 0xFF000000 = a ++ (0 : BitVec 24) := by
  ext k hk
  simp only [BitVec.getElem_and, BitVec.getElem_append]
  have hm : (0xFF000000 : BitVec 32) = (BitVec.allOnes 8 ++ (0 : BitVec 24) : BitVec 32) := by decide
  rw [hm, BitVec.getElem_append]
  split
  · simp
  · rw [BitVec.getElem_allOnes, Bool.and_true]

theorem reset : Statement .reset := by unfold Statement; decide
theorem init1 : Statement .init1 := by unfold Statement; decide
theorem init0 : Statement .init0 := by unfold Statement; decide
theorem sdDisarm : Statement .sdDisarm := by unfold Statement; decide
theorem sdClkoff : Statement .sdClkoff := by unfold Statement; decide
theorem sdMask : Statement .sdMask := by unfold Statement; decide
theorem pgAck : Statement .pgAck := by unfold Statement; decide
theorem pgRearm : Statement .pgRearm := by unfold Statement; decide
theorem pgChk : Statement .pgChk := by unfold Statement; decide
theorem pgOut : Statement .pgOut := by unfold Statement; decide
theorem scUpd : Statement .scUpd := by unfold Statement; decide
theorem scBnd : Statement .scBnd := by unfold Statement; decide
theorem scArm : Statement .scArm := by unfold Statement; decide
theorem adv (n : Nat) : Statement (.adv n) := 
  (masked_append _ _).trans (show (BitVec.ofNat 8 0x30 ++ (0 : BitVec 24) : BitVec 32) = 0x30000000 by decide)
theorem msadv (n : Nat) : Statement (.msadv n) := 
  (masked_append _ _).trans (show (BitVec.ofNat 8 0x31 ++ (0 : BitVec 24) : BitVec 32) = 0x31000000 by decide)
theorem rdduty : Statement .rdduty := by unfold Statement; decide
theorem rbOpen : Statement .rbOpen := by unfold Statement; decide
theorem rbRead : Statement .rbRead := by unfold Statement; decide
theorem rbWrite (len : Nat) : Statement (.rbWrite len) := 
  (masked_append _ _).trans (show (BitVec.ofNat 8 0x43 ++ (0 : BitVec 24) : BitVec 32) = 0x43000000 by decide)

end Sys2Proof.Laws.EncodingRow
end

