-- ==== Sys2Proof/Tests/Slice0.lean ====
section
/-! SUPPORT. The model's own tests: expected values from the spec's encoding (30_encoding.md R80 to R84) and its vectors
(95_test_vectors.md part B), and for every statement with hypotheses a state and operands that meet them together. -/
namespace Sys2Proof.Tests
open Sys2Proof Sys2Proof.Machine

/-! ## Helpers: the vectors' instance (widths 32, TOGGLE_TICK 1000) and a state to vary -/

/-- The instance of 95_test_vectors.md; 17 and 19 stand for its `C` and `P`. -/
def inst : Config.Params := ⟨32, 32, 32, 32, 1000, 17, 19⟩

/-- The narrowest instance R6 admits. -/
def narrow : Config.Params := ⟨9, 2, 6, 12, 9, 511, 0⟩

/-- Registers of a started, quiescent block at tick 0 and millisecond 0. -/
def started : Regs where
  dutyval := 110
  dir := .increasing
  percnt := 0
  matchReg := 1000
  swdl := 1000
  pwmduty := 0
  pwmctrl := 17
  pwmperval := 19
  mpend := false
  mien := true
  swarm := true
  clken := true
  tickcnt := 0
  msnow := 0
  fault := .none
  initstat := .success
  rbdone := false
  pgpc := .idle
  scpc := .idle
  hpc := .idle

/-- Registers of a stopped block. -/
def stopped : Regs := { started with mien := false, swarm := false, clken := false }

/-- A state of the vectors' instance with nothing left to take. -/
def at_ (r : Regs) : State := ⟨inst, r, [], [], [r.pwmduty], 0⟩

/-- The outcome is a next state with the property. -/
def nextIs (o : Outcome) (p : State → Bool) : Bool :=
  match o with
  | .next t => p t
  | .fault _ => false
  | .refused _ => false

/-- The outcome is a refusal. -/
def isRefused (o : Outcome) : Bool :=
  match o with
  | .next _ => false
  | .fault _ => false
  | .refused _ => true

/-! ## Well-formedness: an ill-formed operation for each check -/

theorem test_illformed_adv_zero : (Instr.adv 0).wellFormed = false := by decide
theorem test_illformed_adv_wide : (Instr.adv (2 ^ 24)).wellFormed = false := by decide
theorem test_illformed_msadv_zero : (Instr.msadv 0).wellFormed = false := by decide
theorem test_illformed_msadv_wide : (Instr.msadv (2 ^ 24)).wellFormed = false := by decide
theorem test_illformed_rbWrite_wide : (Instr.rbWrite (2 ^ 24)).wellFormed = false := by decide

/-! ## Decoding: every constructor from a word written out bit by bit (op in bits 31:24, imm in bits 23:0) -/

theorem test_decode_reset : decode 0b00000001_000000000000000000000000 = .op .reset := by decide
theorem test_decode_init1 : decode 0b00000010_000000000000000000000001 = .op .init1 := by decide
theorem test_decode_init0 : decode 0b00000010_000000000000000000000000 = .op .init0 := by decide
theorem test_decode_sdDisarm : decode 0b00000011_000000000000000000000000 = .op .sdDisarm := by decide
theorem test_decode_sdClkoff : decode 0b00000100_000000000000000000000000 = .op .sdClkoff := by decide
theorem test_decode_sdMask : decode 0b00000101_000000000000000000000000 = .op .sdMask := by decide
theorem test_decode_pgAck : decode 0b00010000_000000000000000000000000 = .op .pgAck := by decide
theorem test_decode_pgRearm : decode 0b00010001_000000000000000000000000 = .op .pgRearm := by decide
theorem test_decode_pgChk : decode 0b00010010_000000000000000000000000 = .op .pgChk := by decide
theorem test_decode_pgOut : decode 0b00010011_000000000000000000000000 = .op .pgOut := by decide
theorem test_decode_scUpd : decode 0b00100000_000000000000000000000000 = .op .scUpd := by decide
theorem test_decode_scBnd : decode 0b00100001_000000000000000000000000 = .op .scBnd := by decide
theorem test_decode_scArm : decode 0b00100010_000000000000000000000000 = .op .scArm := by decide
theorem test_decode_adv : decode 0b00110000_000000000000001111101000 = .op (.adv 1000) := by decide
theorem test_decode_msadv : decode 0b00110001_111111111111111111111111 = .op (.msadv 16777215) := by decide
theorem test_decode_rdduty : decode 0b01000000_000000000000000000000000 = .op .rdduty := by decide
theorem test_decode_rbOpen : decode 0b01000001_000000000000000000000000 = .op .rbOpen := by decide
theorem test_decode_rbRead : decode 0b01000010_000000000000000000000000 = .op .rbRead := by decide
theorem test_decode_rbWrite : decode 0b01000011_000000000000000000000101 = .op (.rbWrite 5) := by decide

/-- The illegal words of 95_test_vectors.md B1. -/
theorem test_decode_illegal :
    [0x00000000, 0xFFFFFFFF, 0x06000000, 0x14000000, 0x23000000, 0x32000000, 0x44000000, 0x50000000].map decode
      = List.replicate 8 (Decoded.illegal .unknownOp) ∧
    [0x01000001, 0x13000001].map decode = List.replicate 2 (Decoded.illegal .operandNotZero) ∧
    [0x02000002, 0x02000003].map decode = List.replicate 2 (Decoded.illegal .initOperand) ∧
    [0x30000000, 0x31000000].map decode = List.replicate 2 (Decoded.illegal .zeroAdvance) := by decide

/-- The host's two entry points on a table word, and on an illegal one. -/
theorem test_decodeTableWord :
    decodeTableWord 32 0x300003E8 = some (.adv 1000) ∧ decodeTableWord 32 0x06000000 = none := by decide
theorem test_withFetchWord_runs_first :
    step (State.reset.withFetchWord 32 0x02000001) = exec .init1 State.reset := by rfl
theorem test_reset_runs_init1 :
    nextIs (step (State.reset.withFetchWord 32 0x02000001)) (fun t => t.regs.clken && t.regs.dutyval == 110) = true := by
  decide

/-! ## One operation at a time (95_test_vectors.md B2 to B7) -/

theorem test_arith : addW 32 0xFFFFFE00 1000 = 0x1E8 ∧ subW 32 50 60 = 0xFFFFFFF6 ∧ sdiffW 32 2000 1991 = 9 ∧
    sdiffW 32 2000 2500 = -500 ∧ sdiffW 32 0x80000000 0 = -2147483648 ∧ sdiffW 32 4 0xFFFFFFFC = 8 := by decide

theorem test_pgAck_preempts_the_sweep_tick :
    nextIs (exec .pgAck (at_ { started with mpend := true, scpc := .bnd, swarm := false }))
      (fun t => !t.regs.mpend && t.regs.pgpc == .rearm && t.regs.scpc == .bnd) = true := by decide
theorem test_pgAck_masked : isRefused (exec .pgAck (at_ { started with mpend := true, mien := false })) = true := by
  decide
theorem test_pgRearm_wraps :
    nextIs (exec .pgRearm (at_ { started with pgpc := .rearm, matchReg := 0xFFFFFE00, percnt := 0xFFFFFFFF }))
      (fun t => t.regs.matchReg == 0x1E8 && t.regs.percnt == 0 && t.regs.pgpc == .chk) = true := by decide
theorem test_pgChk_leaves_at_nine :
    nextIs (exec .pgChk (at_ { started with pgpc := .chk, matchReg := 4, tickcnt := 0xFFFFFFFB }))
      (fun t => t.regs.pgpc == .out) = true := by decide
theorem test_pgChk_loops_at_eight :
    nextIs (exec .pgChk (at_ { started with pgpc := .chk, matchReg := 4, tickcnt := 0xFFFFFFFC }))
      (fun t => t.regs.pgpc == .rearm) = true := by decide
theorem test_pgOut_gate_open :
    nextIs (exec .pgOut (at_ { started with pgpc := .out, percnt := 0xFFFFFFFF, dutyval := 290 }))
      (fun t => t.regs.pwmduty == 290 && t.pwmSeq == [0, 290] && t.regs.pgpc == .idle) = true := by decide
theorem test_pgOut_gate_closed :
    nextIs (exec .pgOut (at_ { started with pgpc := .out, percnt := 4, pwmduty := 110 }))
      (fun t => t.regs.pwmduty == 0) = true := by decide
theorem test_scUpd_reaches_the_right_end :
    nextIs (exec .scUpd (at_ { started with dutyval := 410, msnow := 6000, swdl := 6000 }))
      (fun t => t.regs.dutyval == 470 && !t.regs.swarm && t.regs.scpc == .bnd && t.regs.dir == .increasing) = true := by
  decide
theorem test_scUpd_too_early : isRefused (exec .scUpd (at_ { started with msnow := 999 })) = true := by decide
theorem test_scBnd_flips :
    nextIs (exec .scBnd (at_ { started with scpc := .bnd, dutyval := 110, dir := .decreasing }))
      (fun t => t.regs.dir == .increasing && t.regs.scpc == .arm) = true := by decide
theorem test_scBnd_tests_the_right_end_only_when_increasing :
    nextIs (exec .scBnd (at_ { started with scpc := .bnd, dutyval := 470, dir := .decreasing }))
      (fun t => t.regs.dir == .decreasing) = true := by decide
theorem test_scArm_wraps :
    nextIs (exec .scArm (at_ { started with scpc := .arm, swarm := false, msnow := 0xFFFFFF00 }))
      (fun t => t.regs.swdl == 0x2E8 && t.regs.swarm && t.regs.scpc == .idle) = true := by decide
theorem test_rdduty_returns :
    nextIs (exec .rdduty (at_ { started with dutyval := 350 })) (fun t => t.returned == [.duty 350]) = true := by decide
theorem test_rdduty_raises :
    nextIs (exec .rdduty (at_ { started with dutyval := 50 }))
      (fun t => t.returned == [] && t.regs.fault == .invariantViolation) = true := by decide
theorem test_rbOpen :
    nextIs (exec .rbOpen (at_ { started with rbdone := true })) (fun t => !t.regs.rbdone) = true := by decide
theorem test_rbRead_label :
    nextIs (exec .rbRead (at_ { started with dutyval := 230 }))
      (fun t => t.returned == [.text ['6', '0']] && t.regs.rbdone) = true := by decide
theorem test_rbRead_again_reads_no_duty :
    nextIs (exec .rbRead (at_ { started with rbdone := true, dutyval := 50 }))
      (fun t => t.returned == [.text []] && t.regs.fault == .none) = true := by decide
theorem test_rbWrite :
    nextIs (exec (.rbWrite 5) (at_ started)) (fun t => t.returned == [.accepted] && t.regs == started) = true := by
  decide
theorem test_adv_reaches_across_the_wrap :
    nextIs (exec (.adv 1) (at_ { started with tickcnt := 0xFFFFFFFF, matchReg := 0 }))
      (fun t => t.regs.tickcnt == 0 && t.regs.mpend) = true := by decide
theorem test_adv_equal_before_is_no_match :
    nextIs (exec (.adv 1) (at_ { started with tickcnt := 500, matchReg := 500 }))
      (fun t => t.regs.tickcnt == 501 && !t.regs.mpend) = true := by decide
theorem test_msadv_wraps :
    nextIs (exec (.msadv 512) (at_ { started with msnow := 0xFFFFFF00 })) (fun t => t.regs.msnow == 0x100) = true := by
  decide
theorem test_reset_clears :
    nextIs (exec .reset (at_ { started with
        dutyval := 350, dir := .decreasing, percnt := 77, mpend := true, fault := .invariantViolation
        rbdone := true, pgpc := .chk, scpc := .arm, tickcnt := 123, msnow := 456 }))
      (fun t => t.regs.dutyval == 110 && t.regs.dir == .increasing && t.regs.percnt == 0 && !t.regs.mien &&
        t.regs.fault == .none && t.regs.pgpc == .idle && t.regs.tickcnt == 123 && t.regs.msnow == 456) = true := by
  decide
theorem test_init1 :
    nextIs (exec .init1 (at_ { stopped with tickcnt := 5000, msnow := 70000 }))
      (fun t => t.regs.matchReg == 6000 && t.regs.swdl == 71000 && t.regs.pwmctrl == 17 && t.regs.pwmperval == 19 &&
        t.regs.mien && t.regs.swarm && t.regs.clken && t.returned == [.initStatus .success]) = true := by decide
/-- PWMDUTY is unspecified from INIT on (93_implementation_defined.md U3): one fresh value is drawn and recorded. -/
theorem test_init1_draws_the_output :
    nextIs (exec .init1 (at_ stopped)) (fun t => t.nextFree == 1 && t.pwmSeq.length == 2) = true := by decide
theorem test_init1_started : isRefused (exec .init1 (at_ started)) = true := by decide
theorem test_init0 :
    nextIs (exec .init0 (at_ stopped))
      (fun t => !t.regs.mien && !t.regs.swarm && !t.regs.clken && t.regs.initstat == .registrationFailure &&
        t.returned == [.initStatus .registrationFailure]) = true := by decide
theorem test_sdDisarm_inside_a_tick :
    isRefused (exec .sdDisarm (at_ { started with scpc := .bnd, swarm := false })) = true := by decide
theorem test_sdDisarm :
    nextIs (exec .sdDisarm (at_ started)) (fun t => !t.regs.swarm && t.regs.hpc == .sd1 && t.regs.clken) = true := by
  decide
theorem test_sdClkoff :
    nextIs (exec .sdClkoff (at_ { started with hpc := .sd1, swarm := false }))
      (fun t => !t.regs.clken && t.regs.hpc == .sd2 && t.regs.mien) = true := by decide
theorem test_sdClkoff_out_of_order : isRefused (exec .sdClkoff (at_ started)) = true := by decide
theorem test_sdMask_keeps_the_pending_match :
    nextIs (exec .sdMask (at_ { started with hpc := .sd2, mpend := true, swarm := false, clken := false }))
      (fun t => !t.regs.mien && t.regs.hpc == .idle && t.regs.mpend) = true := by decide
theorem test_sdMask_out_of_order : isRefused (exec .sdMask (at_ { started with hpc := .sd1 })) = true := by decide

/-! ## Witnesses: every hypothesis of every statement is met, all together, by a concrete state and operands -/

/-- A state about to take one word. -/
def facing (w : OpWord) : State := { at_ started with trace := [w] }

theorem witness_StepRunsTheDecodedOperation : (facing 0x30000001).trace = 0x30000001 :: [] ∧
    decode 0x30000001 = .op (.adv 1) := by decide
theorem witness_FetchedWordIsRunNext : (Instr.adv 1).wellFormed = true ∧ (Instr.rbWrite 16777215).wellFormed = true := by
  decide
theorem witness_IllegalWordIsRefused : (facing 0x30000000).trace = 0x30000000 :: [] ∧
    decode 0x30000000 = .illegal .zeroAdvance ∧ (at_ started).trace = [] := by decide
theorem witness_DecodeOfEncode : (Instr.adv 1).wellFormed = true ∧ (Instr.msadv 16777215).wellFormed = true ∧
    (Instr.rbWrite 0).wellFormed = true := by decide
theorem witness_EveryLegalWord : decode 0x30FFFFFF = .op (.adv 16777215) := by decide
theorem witness_DecodeFollowsMatchAndMask : (Instr.adv 16777215).wellFormed = true ∧
    (0x30FFFFFF : OpWord) &&& (Instr.adv 16777215).rowMask = (Instr.adv 16777215).rowMatch ∧
    immField 0x30FFFFFF = 16777215 := by decide
theorem witness_ArithmeticPrimitives : (1 : Nat) ≤ 1 ∧ sdiffW 1 1 0 = -1 := by decide
theorem witness_GatePhase : (2 : Nat) ≤ 2 ∧ addW 2 3 1 = 0 := by decide

theorem witness_PgAck :
    (let r := { started with mpend := true }; r.pgpc = .idle ∧ r.mpend = true ∧ r.mien = true) ∧
    ¬(started.pgpc = .idle ∧ started.mpend = true ∧ started.mien = true) ∧
    nextIs (exec .pgRearm (at_ { started with pgpc := .rearm })) (fun _ => true) = true ∧
    nextIs (exec .pgChk (at_ { started with pgpc := .chk })) (fun _ => true) = true ∧
    (let r := { started with pgpc := .out, mpend := true };
      nextIs (exec .pgOut (at_ r)) (fun _ => true) = true ∧ r.mpend = true ∧ r.mien = true) := by decide
theorem witness_PgRearm : (at_ { started with pgpc := .rearm }).regs.pgpc = .rearm ∧ (at_ started).regs.pgpc ≠ .rearm := by
  decide
theorem witness_PgChk :
    (let s := at_ { started with pgpc := .chk, matchReg := 8 };
      s.regs.pgpc = .chk ∧ sdiffW s.params.tickW s.regs.matchReg s.regs.tickcnt ≤ 8) ∧
    (let s := at_ { started with pgpc := .chk, matchReg := 9 };
      s.regs.pgpc = .chk ∧ 8 < sdiffW s.params.tickW s.regs.matchReg s.regs.tickcnt) ∧
    (at_ started).regs.pgpc ≠ .chk := by decide
theorem witness_PgOut :
    (let r := { started with pgpc := .out, percnt := 3 }; r.pgpc = .out ∧ r.clken = true ∧ r.percnt % 4 = 3) ∧
    (let r := { started with pgpc := .out, percnt := 4 }; r.pgpc = .out ∧ r.clken = true ∧ r.percnt % 4 ≠ 3) ∧
    (let r := { started with pgpc := .out, clken := false }; r.pgpc = .out ∧ r.clken = false) ∧
    started.pgpc ≠ .out := by decide
theorem witness_ScUpd :
    (let s := at_ { started with msnow := 1000 };
      s.regs.scpc = .idle ∧ s.regs.pgpc = .idle ∧ s.regs.swarm = true ∧
      0 ≤ sdiffW s.params.msW s.regs.msnow s.regs.swdl ∧ s.regs.dir = .increasing) ∧
    (let s := at_ { started with msnow := 1000, dutyval := 110, dir := .decreasing };
      s.regs.scpc = .idle ∧ s.regs.pgpc = .idle ∧ s.regs.swarm = true ∧
      0 ≤ sdiffW s.params.msW s.regs.msnow s.regs.swdl ∧ s.regs.dir = .decreasing) ∧
    (let s := at_ { started with msnow := 999 };
      ¬(s.regs.scpc = .idle ∧ s.regs.pgpc = .idle ∧ s.regs.swarm = true ∧
        0 ≤ sdiffW s.params.msW s.regs.msnow s.regs.swdl)) := by decide
theorem witness_ScBnd :
    (let r := { started with scpc := .bnd, dutyval := 470 }; r.scpc = .bnd ∧ r.pgpc = .idle) ∧
    ¬(started.scpc = .bnd ∧ started.pgpc = .idle) := by decide
/-- The last clause, at the update that arrives at the left end. -/
theorem witness_ScBnd_flip :
    let s := at_ { started with msnow := 1000, dutyval := 170, dir := .decreasing }
    s.params.Ok ∧ DutyInvariant s.regs ∧
      nextIs (execAll [.scUpd, .scBnd] s) (fun t => t.regs.dutyval == 110 && t.regs.dir == .increasing) = true :=
  ⟨by decide, ⟨by decide, by decide, by decide⟩, by decide⟩
theorem witness_ScArm :
    (let r := { started with scpc := .arm }; r.scpc = .arm ∧ r.pgpc = .idle) ∧
    ¬(started.scpc = .arm ∧ started.pgpc = .idle) ∧
    inst.Ok ∧ 999 < 1000 ∧
    nextIs (execAll [.scArm, .msadv 999] (at_ { started with scpc := .arm, swarm := false })) (fun _ => true) = true := by
  decide
theorem witness_AngleTable :
    (470, ['1', '8', '0'], 180) ∈ [(110, ['0'], 0), (170, ['3', '0'], 30), (230, ['6', '0'], 60),
      (290, ['9', '0'], 90), (350, ['1', '2', '0'], 120), (410, ['1', '5', '0'], 150), (470, ['1', '8', '0'], 180)] ∧
    109 ∉ [110, 170, 230, 290, 350, 410, 470] ∧ 471 ∉ [110, 170, 230, 290, 350, 410, 470] := by decide
theorem witness_Rdduty : started.dutyval ∈ [110, 170, 230, 290, 350, 410, 470] ∧
    { started with dutyval := 50 }.dutyval ∉ [110, 170, 230, 290, 350, 410, 470] := by decide
theorem witness_RbRead :
    { started with rbdone := true }.rbdone = true ∧
    (started.rbdone = false ∧ started.dutyval = 110 ∧ (110, ['0']) ∈ [(110, ['0']), (170, ['3', '0']),
      (230, ['6', '0']), (290, ['9', '0']), (350, ['1', '2', '0']), (410, ['1', '5', '0']), (470, ['1', '8', '0'])]) ∧
    (let r := { started with dutyval := 471 };
      r.rbdone = false ∧ r.dutyval ∉ [110, 170, 230, 290, 350, 410, 470]) := by decide
theorem witness_RbWrite : 0 < 2 ^ 24 ∧ 16777215 < 2 ^ 24 := by decide
theorem witness_AdvClosedForm : 1 ≤ 1 ∧ 16777215 < 2 ^ 24 ∧ 16777215 < 2 ^ (at_ started).params.tickW := by decide
theorem witness_AdvIsRepeatedTicks : 1 ≤ (at_ started).params.tickW ∧
    (at_ started).regs.InWidth (at_ started).params := by
  refine ⟨by decide, fun q => ?_⟩
  cases q <;> decide
theorem witness_Msadv : 1 ≤ 1 ∧ 16777215 < 2 ^ 24 := by decide

theorem witness_Launch : 4294967295 < 2 ^ inst.tickW ∧ 0 < 2 ^ inst.msW ∧ inst.Ok ∧ narrow.Ok ∧
    ¬{ inst with toggleTick := 8 }.Ok := by decide
theorem witness_AfterReset : nextIs (exec .reset (at_ started)) (fun _ => true) = true := by decide
theorem witness_Init :
    (stopped.hpc = .idle ∧ stopped.pgpc = .idle ∧ stopped.scpc = .idle ∧ stopped.mien = false ∧
      stopped.swarm = false ∧ stopped.clken = false) ∧
    ¬(started.hpc = .idle ∧ started.pgpc = .idle ∧ started.scpc = .idle ∧ started.mien = false ∧
      started.swarm = false ∧ started.clken = false) := by decide
theorem witness_SdDisarm : (started.hpc = .idle ∧ started.pgpc = .idle ∧ started.scpc = .idle) ∧
    (let r := { started with hpc := .sd1 }; ¬(r.hpc = .idle ∧ r.pgpc = .idle ∧ r.scpc = .idle)) := by decide
theorem witness_SdClkoff :
    (let r := { started with hpc := .sd1, mpend := true };
      r.hpc = .sd1 ∧ r.pgpc = .idle ∧ nextIs (exec .sdClkoff (at_ r)) (fun _ => true) = true ∧ r.mpend = true ∧
      r.mien = true) ∧
    ¬(started.hpc = .sd1 ∧ started.pgpc = .idle) := by decide
theorem witness_SdMask :
    (let r := { started with hpc := .sd2 };
      r.hpc = .sd2 ∧ r.pgpc = .idle ∧ nextIs (exec .sdMask (at_ r)) (fun _ => true) = true) ∧
    ¬(started.hpc = .sd2 ∧ started.pgpc = .idle) := by decide
/-- The last clause: a state between SD.CLKOFF and SD.MASK meets the lifecycle invariant. -/
theorem witness_SdMask_invariant :
    let r := { started with hpc := .sd2, swarm := false, clken := false }
    LifecycleInvariant r ∧ nextIs (exec .sdMask (at_ r)) (fun _ => true) = true :=
  ⟨⟨by decide, by decide, by decide, by decide, by decide, by decide, by decide⟩, by decide⟩
theorem witness_ShutdownThenRestart : started.hpc = .idle ∧ started.pgpc = .idle ∧ started.scpc = .idle := by decide
theorem witness_DisarmIsFinal :
    (let r := { started with swarm := false, hpc := .sd1 };
      r.swarm = false ∧ r.scpc = .idle ∧ Instr.sdClkoff ≠ .init1 ∧
      nextIs (exec .sdClkoff (at_ r)) (fun _ => true) = true) := by decide

theorem witness_OperationsWriteOnly : nextIs (exec (.adv 1) (at_ started)) (fun _ => true) = true ∧
    Reg.FAULT ∉ writers (.adv 1) := by decide
/-- Two different states that agree on what SC.ARM reads and writes. -/
theorem witness_OperationsDependOnly :
    let s := at_ { started with scpc := .arm, swarm := false }
    let s' := at_ { started with scpc := .arm, swarm := false, dutyval := 470, mpend := true }
    s'.params = s.params ∧ s'.nextFree = s.nextFree ∧
      (∀ q ∈ readers .scArm ++ writers .scArm, s'.regs.read q = s.regs.read q) ∧
      nextIs (exec .scArm s) (fun t => t.returned == s.returned ++ [] && t.pwmSeq == s.pwmSeq ++ []) = true := by
  decide
theorem witness_OperationsReturn :
    nextIs (exec .pgOut (at_ { started with pgpc := .out })) (fun _ => true) = true ∧
    nextIs (exec .init0 (at_ stopped)) (fun t => t.pwmSeq.length == 2) = true ∧
    nextIs (exec .reset (at_ started)) (fun t => t.pwmSeq.length == 2) = true ∧
    nextIs (exec .rdduty (at_ started)) (fun _ => true) = true ∧
    started.dutyval ∈ [110, 170, 230, 290, 350, 410, 470] ∧
    { started with dutyval := 50 }.dutyval ∉ [110, 170, 230, 290, 350, 410, 470] ∧
    nextIs (exec .rbRead (at_ { started with dutyval := 50 })) (fun t => !t.regs.rbdone) = true ∧
    nextIs (exec (.rbWrite 0) (at_ started)) (fun _ => true) = true := by decide
theorem witness_PhasesFollow : nextIs (exec .pgAck (at_ { started with mpend := true })) (fun _ => true) = true := by
  decide
theorem witness_Invocations :
    (let r := { started with pgpc := .chk }; r.pgpc ≠ .idle) ∧ (let r := { started with scpc := .bnd }; r.scpc ≠ .idle) ∧
    (let r := { started with mpend := true }; r.pgpc = .idle ∧ r.mpend = true ∧ r.mien = true) := by decide
/-- The clauses inside an invocation: PG.OUT and RESET both step there and end it. -/
theorem witness_Invocations_end :
    let s := at_ { started with pgpc := .out }
    s.regs.pgpc ≠ .idle ∧ nextIs (exec .pgOut s) (fun t => t.regs.pgpc == .idle) = true ∧
      nextIs (exec .reset s) (fun t => t.regs.pgpc == .idle) = true := by decide
/-- A sweep tick in progress meets the lifecycle invariant. -/
theorem witness_lifecycle_inside_a_tick :
    LifecycleInvariant { started with scpc := .bnd, swarm := false } ∧
      { started with scpc := .bnd, swarm := false }.scpc ≠ .idle :=
  ⟨⟨by decide, by decide, by decide, by decide, by decide, by decide, by decide⟩, by decide⟩
theorem witness_FaultIsSticky :
    nextIs (exec .rdduty (at_ { started with dutyval := 50 })) (fun t => t.regs.fault == .invariantViolation) = true := by
  decide

/-- A state inside a sweep tick that has just reached the right end meets every invariant and steps. -/
theorem witness_invariants :
    let r : Regs := { started with scpc := .bnd, swarm := false, dutyval := 470 }
    let s : State := { at_ r with trace := [0x21000000] }
    s.params.Ok ∧ DutyInvariant s.regs ∧ LifecycleInvariant s.regs ∧ s.regs.InWidth s.params ∧ s.Safe ∧
      nextIs (step s) (fun t => t.regs.dir == .decreasing) = true := by
  refine ⟨by decide, ⟨by decide, by decide, by decide⟩,
    ⟨by decide, by decide, by decide, by decide, by decide, by decide, by decide⟩, fun q => ?_, rfl, by decide⟩
  cases q <;> decide

/-- A state about to take PG.OUT has its output recorded, and steps. -/
theorem witness_EveryStepRecordsTheOutput :
    let s : State := { at_ { started with pgpc := .out, percnt := 3 } with trace := [0x13000000] }
    s.OutputRecorded ∧ nextIs (step s) (fun t => t.pwmSeq == [0, 110] && t.regs.pwmduty == 110) = true :=
  ⟨rfl, by decide⟩

theorem witness_SweepTick :
    let s := at_ { started with msnow := 1000, dutyval := 410 }
    ((410, Direction.increasing), (470, Direction.decreasing)) ∈ [((110, Direction.increasing), (170, Direction.increasing)),
      ((170, .increasing), (230, .increasing)), ((230, .increasing), (290, .increasing)),
      ((290, .increasing), (350, .increasing)), ((350, .increasing), (410, .increasing)),
      ((410, .increasing), (470, .decreasing)), ((470, .decreasing), (410, .decreasing)),
      ((410, .decreasing), (350, .decreasing)), ((350, .decreasing), (290, .decreasing)),
      ((290, .decreasing), (230, .decreasing)), ((230, .decreasing), (170, .decreasing)),
      ((170, .decreasing), (110, .increasing))] ∧
    s.params.Ok ∧ s.regs.dutyval = 410 ∧ s.regs.dir = .increasing ∧ s.regs.scpc = .idle ∧ s.regs.pgpc = .idle ∧
    s.regs.swarm = true ∧ 0 ≤ sdiffW s.params.msW s.regs.msnow s.regs.swdl := by decide
theorem witness_SweepReturns :
    let s := at_ started
    s.params.Ok ∧ s.regs.dutyval = 110 ∧ s.regs.dir = .increasing ∧ s.regs.scpc = .idle ∧ s.regs.pgpc = .idle ∧
      s.regs.swarm = true ∧ s.regs.swdl = addW s.params.msW s.regs.msnow 1000 := by decide
/-- Row L = 1992 of 95_test_vectors.md B3.1: three iterations. -/
theorem witness_Invocation :
    let s := at_ { started with tickcnt := 2992, mpend := true }
    s.params.Ok ∧ s.regs.pgpc = .idle ∧ s.regs.mpend = true ∧ s.regs.mien = true ∧ s.regs.clken = true ∧
    ((3 : Nat) : Int) = max 1 ((8 - sdiffW s.params.tickW s.regs.matchReg s.regs.tickcnt)
      / (s.params.toggleTick : Int) + 1) ∧
    sdiffW s.params.tickW s.regs.matchReg s.regs.tickcnt + (3 : Nat) * s.params.toggleTick
      < (2 : Int) ^ (s.params.tickW - 1) := by decide
theorem witness_CatchUp :
    let s := at_ { started with pgpc := .rearm, tickcnt := 1002 }
    let gaps : List (Nat × Nat) := List.replicate 11 (500, 499)
    s.params.Ok ∧ s.regs.pgpc = .rearm ∧ (∀ g ∈ gaps, g.1 + g.2 < s.params.toggleTick) ∧ gaps ≠ [] ∧
    8 - sdiffW s.params.tickW s.regs.matchReg s.regs.tickcnt < gaps.length ∧
    sdiffW s.params.tickW s.regs.matchReg s.regs.tickcnt + s.params.toggleTick < (2 : Int) ^ (s.params.tickW - 1) := by
  decide
theorem witness_FourPeriods :
    let s := at_ { started with percnt := 0xFFFFFFFD }
    s.params.Ok ∧ s.regs.pgpc = .idle ∧ s.regs.mien = true ∧ s.regs.clken = true ∧
    s.regs.matchReg = addW s.params.tickW s.regs.tickcnt s.params.toggleTick := by decide
/-- The state after the prefix of program P4. -/
theorem witness_OrderOfTheTriggers :
    let s := at_ { started with percnt := 2, matchReg := 3000, tickcnt := 3000, mpend := true, msnow := 1000 }
    s.params.Ok ∧ s.regs.pgpc = .idle ∧ s.regs.scpc = .idle ∧ s.regs.mpend = true ∧ s.regs.mien = true ∧
    s.regs.clken = true ∧ s.regs.swarm = true ∧ 0 ≤ sdiffW s.params.msW s.regs.msnow s.regs.swdl ∧
    8 < sdiffW s.params.tickW (addW s.params.tickW s.regs.matchReg s.params.toggleTick) s.regs.tickcnt := by decide
theorem witness_TextForm : 1 ≤ 1 ∧ 16777215 < 2 ^ 24 := by decide

end Sys2Proof.Tests
end

