-- ==== Sys2Proof/Proofs/PulseGenerator.lean ====
section
/-! PROOFS. Family 40_pulse_generator.md: the acknowledgement of a match, and what the rest of the invocation leaves
of a match recorded after it. -/
namespace Sys2Proof.Machine
variable {s t : State} {i : Instr}

/-- An idle generator with an asserted match takes PG.ACK (40_pulse_generator.md R101). -/
theorem exec_pgAck_of_enabled (hidle : s.regs.pgpc = .idle) (hmatch : MatchAsserted s.regs) :
    exec .pgAck s = .next { s with regs.mpend := false, regs.pgpc := .rearm } :=
  guarded_of_pos ⟨hidle, hmatch⟩

/-- A masked match, an unrecorded one or a busy generator refuses PG.ACK (40_pulse_generator.md R101). -/
theorem exec_pgAck_refused (h : ¬(s.regs.pgpc = .idle ∧ MatchAsserted s.regs)) :
    exec .pgAck s = .refused (guardRefusal .pgAck) :=
  guarded_of_neg h

/-- PG.OUT ends the invocation: the generator is idle again, the recorded match and its mask are untouched. -/
theorem exec_pgOut_interrupt (h : exec .pgOut s = .next t) :
    t.regs.pgpc = .idle ∧ t.regs.mpend = s.regs.mpend ∧ t.regs.mien = s.regs.mien := by
  obtain ⟨_, v, n, rfl, _⟩ := exec_pgOut_next h
  exact ⟨rfl, rfl, rfl⟩

/-- After PG.ACK no operation of the invocation touches MPEND. -/
theorem exec_afterAck_mpend (hi : i ∈ [Instr.pgRearm, .pgChk, .pgOut]) (h : exec i s = .next t) :
    t.regs.mpend = s.regs.mpend := by
  simp only [List.mem_cons, List.not_mem_nil, or_false] at hi
  obtain rfl | rfl | rfl := hi
  · obtain ⟨_, rfl⟩ := exec_pgRearm_next h
    rfl
  · obtain ⟨_, rfl⟩ := exec_pgChk_next h
    rfl
  · exact (exec_pgOut_interrupt h).2.1

/-- Settles O12: PG.ACK is a guarded step, and PG.OUT hands a match recorded meanwhile to the next one. -/
theorem pgAckAcknowledgesTheMatch : Obligations.PgAckAcknowledgesTheMatch := by
  refine ⟨by decide, fun _ hidle hpend hien => exec_pgAck_of_enabled hidle ⟨hpend, hien⟩,
    fun _ hdisabled => ⟨_, exec_pgAck_refused hdisabled⟩, fun _ _ _ => exec_afterAck_mpend,
    fun s t hout hpend hien => ?_⟩
  obtain ⟨hidle, hmpend, hmien⟩ := exec_pgOut_interrupt hout
  exact ⟨_, exec_pgAck_of_enabled hidle ⟨hmpend.trans hpend, hmien.trans hien⟩⟩

end Sys2Proof.Machine
end

