-- ==== Sys2Proof/Proofs/SweepController.lean ====
section
/-! PROOFS. Family 41_sweep_controller.md: where the boundary check flips the direction, and how far ahead of the
sweep tick that ends the re-arm puts the next one. -/
namespace Sys2Proof.Machine
variable {s t : State} {p : Config.Params} {r : Regs}

/-! ## SC.BND -/

theorem exec_scBnd_of_enabled (hbnd : s.regs.scpc = .bnd) (hidle : s.regs.pgpc = .idle) :
    exec .scBnd s = .next { s with regs.dir := boundaryDir s.regs, regs.scpc := .arm } :=
  guarded_of_pos ⟨hbnd, hidle⟩

theorem exec_scBnd_refused (h : ¬(s.regs.scpc = .bnd ∧ s.regs.pgpc = .idle)) :
    exec .scBnd s = .refused (guardRefusal .scBnd) :=
  guarded_of_neg h

theorem boundaryDir_of_increasing (h : r.dir = .increasing) :
    boundaryDir r = if r.dutyval = 470 then .decreasing else .increasing := by
  rw [boundaryDir, h]

theorem boundaryDir_of_decreasing (h : r.dir = .decreasing) :
    boundaryDir r = if r.dutyval = 110 then .increasing else .decreasing := by
  rw [boundaryDir, h]

/-- The boundary check as one chain of tests: a direction is changed at its own end only (R122). -/
theorem boundaryDir_eq (r : Regs) :
    boundaryDir r = if r.dir = .increasing ∧ r.dutyval = 470 then .decreasing
      else if r.dir = .decreasing ∧ r.dutyval = 110 then .increasing
      else r.dir := by
  cases h : r.dir with
  | increasing => simp [boundaryDir_of_increasing h]
  | decreasing => simp [boundaryDir_of_decreasing h]

/-- Every duty value lies between the two ends, and one below the right end is a whole step below it (00_scope.md
R5). -/
theorem dutyDomain_bounds {v : Nat} (h : v ∈ Config.dutyDomain) : 110 ≤ v ∧ v ≤ 470 ∧ (v < 470 → v ≤ 410) := by
  simp only [List.mem_cons, List.not_mem_nil, or_false] at h
  omega

/-- A step or more below the right end the update of R121 does not wrap. -/
theorem nextDuty_of_increasing (hp : p.Ok) (hdir : r.dir = .increasing) (hle : r.dutyval ≤ 410) :
    nextDuty p r = r.dutyval + 60 := by
  have hw := two_pow_wordW_ge hp
  rw [nextDuty, hdir]
  exact addW_of_lt (b := 60) (by omega)

/-- Above the left end the update of R121 does not wrap. -/
theorem nextDuty_of_decreasing (hp : p.Ok) (hdir : r.dir = .decreasing) (hgt : 110 < r.dutyval)
    (hle : r.dutyval ≤ 470) : nextDuty p r = r.dutyval - 60 := by
  have hw := two_pow_wordW_ge hp
  rw [nextDuty, hdir]
  exact subW_of_le (b := 60) (by omega) (by omega)

/-- What the update and the check in a row leave in the direction and the duty value. -/
theorem execAll_scUpd_scBnd_next (h : execAll [.scUpd, .scBnd] s = .next t) :
    s.regs.scpc = .idle ∧ t.regs.dutyval = nextDuty s.params s.regs ∧
      t.regs.dir = boundaryDir { s.regs with dutyval := nextDuty s.params s.regs } := by
  obtain ⟨u, hupd, hrest⟩ := execAll_cons_eq_next_iff.1 h
  obtain ⟨v, hbnd, hnil⟩ := execAll_cons_eq_next_iff.1 hrest
  obtain ⟨⟨hidle, -, -⟩, rfl⟩ := exec_scUpd_next hupd
  obtain ⟨-, rfl⟩ := exec_scBnd_next hbnd
  cases hnil
  exact ⟨hidle, rfl, rfl⟩

/-- The duty invariant keeps the end that the direction does not test out of the update's reach, so the check flips
the direction exactly where the updated value is an end. -/
theorem boundaryDir_nextDuty_ne_iff (hp : p.Ok) (hinv : DutyInvariant r) (hscpc : r.scpc ≠ .bnd) :
    boundaryDir { r with dutyval := nextDuty p r } ≠ r.dir ↔ nextDuty p r = 110 ∨ nextDuty p r = 470 := by
  obtain ⟨hmin, hmax, hstep⟩ := dutyDomain_bounds hinv.domain
  cases hdir : r.dir with
  | increasing =>
    have hnext := nextDuty_of_increasing hp hdir (hstep (hinv.increasing hscpc hdir))
    have hleft : nextDuty p r ≠ 110 := by omega
    rw [boundaryDir_of_increasing rfl]
    simp [hleft]
  | decreasing =>
    have hnext := nextDuty_of_decreasing hp hdir (hinv.decreasing hscpc hdir) hmax
    have hright : nextDuty p r ≠ 470 := by omega
    rw [boundaryDir_of_decreasing rfl]
    simp [hright]

/-- Settles O17: SC.BND is a guarded step whose direction is the chain of equality tests, and between the update and
the check the value can be an end only on the side the direction tests. -/
theorem scBndFlipsOnlyAtTheEndpoints : Obligations.ScBndFlipsOnlyAtTheEndpoints := by
  refine ⟨by decide, fun s hbnd hidle => ?_, fun _ hdisabled => ⟨_, exec_scBnd_refused hdisabled⟩,
    fun s t hp hinv hrun => ?_⟩
  · rw [← boundaryDir_eq]
    exact exec_scBnd_of_enabled hbnd hidle
  · obtain ⟨hidle, hduty, hdir⟩ := execAll_scUpd_scBnd_next hrun
    rw [hduty, hdir]
    exact boundaryDir_nextDuty_ne_iff hp hinv (by simp [hidle])

/-! ## SC.ARM -/

theorem exec_scArm_of_enabled (harm : s.regs.scpc = .arm) (hidle : s.regs.pgpc = .idle) :
    exec .scArm s = .next { s with
      regs.swdl := addW s.params.msW s.regs.msnow 1000, regs.swarm := true, regs.scpc := .idle } :=
  guarded_of_pos ⟨harm, hidle⟩

theorem exec_scArm_refused (h : ¬(s.regs.scpc = .arm ∧ s.regs.pgpc = .idle)) :
    exec .scArm s = .refused (guardRefusal .scArm) :=
  guarded_of_neg h

/-- Before its deadline the sweep tick does not start (43_timer_facilities.md R166). -/
theorem exec_scUpd_refused_of_not_expired (h : ¬SweepExpired s.params s.regs) :
    exec .scUpd s = .refused (guardRefusal .scUpd) :=
  guarded_of_neg fun ⟨_, _, hexpired⟩ => h hexpired

/-- Two points of a circular counter that a common start reaches `d` apart: the later one is `d` short of a whole turn
behind the earlier. -/
theorem subW_addW_later (w a n : Nat) {d : Nat} (hpos : 0 < d) (hle : d ≤ 2 ^ w) :
    subW w (addW w a n) (addW w a (n + d)) = 2 ^ w - d := by
  have hlater : (a + (n + d)) % 2 ^ w < 2 ^ w := Nat.mod_lt _ (Nat.two_pow_pos w)
  have hturns := Nat.div_add_mod (a + (n + d)) (2 ^ w)
  have hsum : a + n + (2 ^ w - (a + (n + d)) % 2 ^ w) = 2 ^ w * ((a + (n + d)) / 2 ^ w) + (2 ^ w - d) := by
    omega
  rw [subW, addW, addW, Nat.mod_mod, Nat.mod_add_mod, hsum, Nat.mul_add_mod, Nat.mod_eq_of_lt (by omega)]

/-- A point not more than half a turn ahead is not reached yet (00_scope.md R9). -/
theorem sdiffW_addW_later_neg {w d : Nat} (a n : Nat) (hpos : 0 < d) (hle : 2 * d ≤ 2 ^ w) :
    sdiffW w (addW w a n) (addW w a (n + d)) < 0 := by
  have hw : w ≠ 0 := by
    rintro rfl
    omega
  have hhalf : 2 * 2 ^ (w - 1) = 2 ^ w := mul_pow_sub_one hw 2
  rw [sdiffW, subW_addW_later w a n hpos (by omega), if_neg (by omega)]
  push_cast [Nat.cast_sub (by omega : d ≤ 2 ^ w)]
  omega

/-- Twelve bits hold the milliseconds of four sweep intervals (00_scope.md R6). -/
theorem two_pow_msW_ge (hp : p.Ok) : 4096 ≤ 2 ^ p.msW := by
  obtain ⟨-, -, -, hms, -⟩ := hp
  exact Nat.pow_le_pow_right (n := 2) (by decide) hms

/-- A re-arm and an advance in a row: the parameters stand, the deadline is 1000 ms and the time `n` ms after the
re-arm. -/
theorem execAll_scArm_msadv_next {n : Nat} (h : execAll [.scArm, .msadv n] s = .next t) :
    t.params = s.params ∧ t.regs.msnow = addW s.params.msW s.regs.msnow n ∧
      t.regs.swdl = addW s.params.msW s.regs.msnow 1000 := by
  obtain ⟨u, harm, hrest⟩ := execAll_cons_eq_next_iff.1 h
  obtain ⟨v, hadv, hnil⟩ := execAll_cons_eq_next_iff.1 hrest
  obtain ⟨-, rfl⟩ := exec_scArm_next harm
  cases hadv
  cases hnil
  exact ⟨rfl, rfl, rfl⟩

theorem not_sweepExpired_of_rearmed {n : Nat} (hp : s.params.Ok) (hn : n < 1000)
    (h : execAll [.scArm, .msadv n] s = .next t) : ¬SweepExpired t.params t.regs := by
  obtain ⟨hparams, hnow, hdeadline⟩ := execAll_scArm_msadv_next h
  have hms := two_pow_msW_ge hp
  have hbehind := sdiffW_addW_later_neg (w := s.params.msW) (d := 1000 - n) s.regs.msnow n (by omega) (by omega)
  rw [show n + (1000 - n) = 1000 by omega] at hbehind
  rintro ⟨-, hdue⟩
  rw [hparams, hnow, hdeadline] at hdue
  omega

/-- Settles O18: SC.ARM is a guarded step, and the deadline it sets is less than half a turn of MSNOW ahead for the
next 999 ms, so it has not expired. -/
theorem scArmRearmsFromNow : Obligations.ScArmRearmsFromNow :=
  ⟨by decide, fun _ => exec_scArm_of_enabled, fun _ hdisabled => ⟨_, exec_scArm_refused hdisabled⟩,
    fun _ _ _ hp hn hrun => ⟨_, exec_scUpd_refused_of_not_expired (not_sweepExpired_of_rearmed hp hn hrun)⟩⟩

end Sys2Proof.Machine
end

