-- ==== Sys2Proof/Proofs/Readback.lean ====
section
/-! PROOFS. Family 42_readback.md: the two operations of the read-back surface that are accepted in every state. -/
namespace Sys2Proof
variable {op imm : Nat}

/-! ## A word given by its two fields -/

theorem opField_ofNat (hop : op < 2 ^ 8) (himm : imm < 2 ^ 24) :
    opField (BitVec.ofNat 32 (op * 2 ^ 24 + imm)) = op := by
  rw [opField, BitVec.extractLsb'_toNat, BitVec.toNat_ofNat, Nat.shiftRight_eq_div_pow]
  omega

theorem immField_ofNat (himm : imm < 2 ^ 24) : immField (BitVec.ofNat 32 (op * 2 ^ 24 + imm)) = imm := by
  rw [immField, BitVec.extractLsb'_toNat, BitVec.toNat_ofNat, Nat.shiftRight_zero]
  omega

/-- The decoder reads back the operation code and the immediate a word is put together from (30_encoding.md R80). -/
theorem decode_ofNat (hop : op < 2 ^ 8) (himm : imm < 2 ^ 24) :
    decode (BitVec.ofNat 32 (op * 2 ^ 24 + imm)) = decodeFields op imm := by
  rw [decode, opField_ofNat hop himm, immField_ofNat himm]

theorem decodeFields_rbWrite (len : Nat) : decodeFields 0x43 len = .op (.rbWrite len) := rfl

end Sys2Proof

namespace Sys2Proof.Machine

/-! ## RB.OPEN and RB.WRITE -/

/-- The new session does not depend on the one before it: RBDONE is cleared whatever it was (42_readback.md R142). -/
theorem exec_rbOpen (s : State) : exec .rbOpen s = .next { s with regs.rbdone := false } := rfl

/-- The length enters nowhere: all that happens is the status returned (42_readback.md R144). -/
theorem exec_rbWrite (len : Nat) (s : State) : exec (.rbWrite len) s = .next (s.emit .accepted) := rfl

/-- Settles O21: the word decodes to RB.OPEN, which has no guard. -/
theorem rbOpenStartsASession : Obligations.RbOpenStartsASession :=
  ⟨by decide, exec_rbOpen⟩

/-- Settles O23: every length is the immediate of a word with RB.WRITE's operation code, and the operation only returns
its status. -/
theorem rbWriteIsAcceptedWithoutEffect : Obligations.RbWriteIsAcceptedWithoutEffect :=
  ⟨fun len hlen => (decode_ofNat (op := 0x43) (by decide) hlen).trans (decodeFields_rbWrite len), exec_rbWrite⟩

end Sys2Proof.Machine
end

