-- ==== Sys2Proof/Proofs/TimerFacilities.lean ====
section
/-! PROOFS. Family 43_timer_facilities.md: the advance of the millisecond time, and the sweep tick it makes possible. -/
namespace Sys2Proof

theorem decodeFields_msadv {n : Nat} (hn : 1 ≤ n) : decodeFields 0x31 n = .op (.msadv n) :=
  if_neg (Nat.ne_of_gt hn)

end Sys2Proof

namespace Sys2Proof.Machine
variable {s : State}

/-! ## MSADV -/

theorem exec_msadv (n : Nat) (s : State) :
    exec (.msadv n) s = .next { s with regs.msnow := addW s.params.msW s.regs.msnow n } := rfl

@[simp] theorem execAll_singleton (i : Instr) (s : State) : execAll [i] s = exec i s := by
  cases h : exec i s <;> simp [execAll, h]

/-- Two advances in a row are one by the sum, wrapping or not (43_timer_facilities.md R165). -/
theorem execAll_msadv_msadv (a b : Nat) (s : State) :
    execAll [.msadv a, .msadv b] s = exec (.msadv (a + b)) s := by
  rw [execAll_cons_of_next (exec_msadv a s), execAll_singleton, exec_msadv, exec_msadv]
  simp only [addW_addW]

/-! ## The sweep tick an advance makes possible -/

/-- With both sequencers idle an expired deadline starts the sweep tick (41_sweep_controller.md R121). -/
theorem exec_scUpd_of_enabled (hsc : s.regs.scpc = .idle) (hpg : s.regs.pgpc = .idle)
    (hexpired : SweepExpired s.params s.regs) :
    exec .scUpd s = .next { s with
      regs.swarm := false, regs.dutyval := nextDuty s.params s.regs, regs.scpc := .bnd } :=
  guarded_of_pos ⟨hsc, hpg, hexpired⟩

/-- The example of 43_timer_facilities.md R165 after its `MSADV 999`: armed, one millisecond short of the deadline. -/
def oneMsToSweep : State :=
  { State.reset with regs.msnow := 999, regs.swdl := 1000, regs.swarm := true }

theorem oneMsToSweep_not_expired : ¬SweepExpired oneMsToSweep.params oneMsToSweep.regs := by decide

theorem oneMsToSweep_expired_after_one :
    SweepExpired oneMsToSweep.params
      { oneMsToSweep.regs with msnow := addW oneMsToSweep.params.msW oneMsToSweep.regs.msnow 1 } := by
  decide

/-- Settles O27: an advance writes MSNOW alone, wrapping additions compose, and in R165's example the last millisecond
enables SC.UPD. -/
theorem msadvAdvancesTheTime : Obligations.MsadvAdvancesTheTime :=
  ⟨fun _ hpos hlt => (decode_ofNat (op := 0x31) (by decide) hlt).trans (decodeFields_msadv hpos),
    exec_msadv, execAll_msadv_msadv, fun _ => rfl,
    oneMsToSweep, _, _, 1, ⟨_, exec_scUpd_refused_of_not_expired oneMsToSweep_not_expired⟩, exec_msadv 1 _,
    exec_scUpd_of_enabled rfl rfl oneMsToSweep_expired_after_one⟩

end Sys2Proof.Machine
end

