-- ==== Sys2Proof/Proofs/Lifecycle.lean ====
section
/-! PROOFS. Family 44_lifecycle.md: what a pending match can still do between the last two shutdown steps and after
them, and the stopped block the shutdown ends in. -/
namespace Sys2Proof.Machine
variable {s t : State} {r : Regs} {i : Instr}

/-! ## SD.CLKOFF -/

theorem exec_sdClkoff_of_enabled (hphase : s.regs.hpc = .sd1) (hidle : s.regs.pgpc = .idle) :
    exec .sdClkoff s = .next { s with regs.clken := false, regs.hpc := .sd2 } :=
  guarded_of_pos ⟨hphase, hidle⟩

theorem exec_sdClkoff_refused (h : ¬(s.regs.hpc = .sd1 ∧ s.regs.pgpc = .idle)) :
    exec .sdClkoff s = .refused (guardRefusal .sdClkoff) :=
  guarded_of_neg h

/-- SD.CLKOFF runs with the generator idle and leaves the match interrupt alone. -/
theorem exec_sdClkoff_interrupt (h : exec .sdClkoff s = .next t) :
    t.regs.pgpc = .idle ∧ t.regs.mpend = s.regs.mpend ∧ t.regs.mien = s.regs.mien := by
  obtain ⟨⟨_, hidle⟩, rfl⟩ := exec_sdClkoff_next h
  exact ⟨hidle, rfl, rfl⟩

/-- Settles O34: SD.CLKOFF is a guarded step, and a match asserted before it still starts an invocation after it. -/
theorem sdClkoffStopsTheClock : Obligations.SdClkoffStopsTheClock := by
  refine ⟨by decide, fun _ => exec_sdClkoff_of_enabled, fun _ hdisabled => ⟨_, exec_sdClkoff_refused hdisabled⟩,
    fun s t hclkoff hpend hien => ?_⟩
  obtain ⟨hidle, hmpend, hmien⟩ := exec_sdClkoff_interrupt hclkoff
  exact ⟨_, exec_pgAck_of_enabled hidle ⟨hmpend.trans hpend, hmien.trans hien⟩⟩

/-! ## SD.MASK -/

theorem exec_sdMask_of_enabled (hphase : s.regs.hpc = .sd2) (hidle : s.regs.pgpc = .idle) :
    exec .sdMask s = .next { s with regs.mien := false, regs.hpc := .idle } :=
  guarded_of_pos ⟨hphase, hidle⟩

theorem exec_sdMask_refused (h : ¬(s.regs.hpc = .sd2 ∧ s.regs.pgpc = .idle)) :
    exec .sdMask s = .refused (guardRefusal .sdMask) :=
  guarded_of_neg h

/-- With the interrupt masked no match starts an invocation, pending or not (40_pulse_generator.md R101). -/
theorem exec_pgAck_refused_of_masked (h : s.regs.mien = false) :
    exec .pgAck s = .refused (guardRefusal .pgAck) :=
  exec_pgAck_refused fun ⟨_, _, hien⟩ => Bool.false_ne_true (h.symm.trans hien)

theorem exec_sdMask_masked (h : exec .sdMask s = .next t) : t.regs.mien = false := by
  obtain ⟨_, rfl⟩ := exec_sdMask_next h
  rfl

/-- Between SD.CLKOFF and SD.MASK the sweep is at rest and the clock is off: a tick in progress or an armed timer would
need HPC idle. -/
theorem LifecycleInvariant.sweep_and_clock_off (hinv : LifecycleInvariant r) (hphase : r.hpc = .sd2) :
    r.scpc = .idle ∧ r.swarm = false ∧ r.clken = false := by
  have hbusy : r.hpc ≠ .idle := by simp [hphase]
  refine ⟨?_, ?_, hinv.clkoff_done hphase⟩
  · by_contra htick
    obtain ⟨_, _, hidle⟩ := hinv.tick_started htick
    exact hbusy hidle
  · refine Bool.eq_false_iff.2 fun harmed => ?_
    obtain ⟨_, _, hidle⟩ := hinv.armed_started harmed
    exact hbusy hidle

/-- The last shutdown step leaves the block stopped (44_lifecycle.md R186). -/
theorem exec_sdMask_stopped (hinv : LifecycleInvariant s.regs) (h : exec .sdMask s = .next t) : Stopped t.regs := by
  obtain ⟨⟨hphase, hpg⟩, rfl⟩ := exec_sdMask_next h
  obtain ⟨hsc, harm, hclk⟩ := hinv.sweep_and_clock_off hphase
  exact ⟨⟨rfl, hpg, hsc⟩, rfl, harm, hclk⟩

/-- A stopped block takes both rows of INIT, and each clears a recorded match (44_lifecycle.md R182, R183). -/
theorem exec_init_clears_mpend (hi : i ∈ [Instr.init1, .init0]) (hstopped : Stopped s.regs) :
    ∃ u, exec i s = .next u ∧ u.regs.mpend = false := by
  simp only [List.mem_cons, List.not_mem_nil, or_false] at hi
  obtain rfl | rfl := hi
  · exact ⟨_, guarded_of_pos hstopped, rfl⟩
  · exact ⟨_, guarded_of_pos hstopped, rfl⟩

/-- Settles O35: SD.MASK is a guarded step, its mask refuses PG.ACK, and under the invariant it ends in a stopped block,
from which INIT clears the recorded match. -/
theorem sdMaskMasksTheInterrupt : Obligations.SdMaskMasksTheInterrupt := by
  refine ⟨by decide, fun _ => exec_sdMask_of_enabled, fun _ hdisabled => ⟨_, exec_sdMask_refused hdisabled⟩,
    fun _ _ hmask => ⟨_, exec_pgAck_refused_of_masked (exec_sdMask_masked hmask)⟩, fun s t hinv hmask => ?_⟩
  obtain ⟨⟨hhost, hpg, hsc⟩, hmasked, harm, hclk⟩ := exec_sdMask_stopped hinv hmask
  exact ⟨hhost, hpg, hsc, hmasked, harm, hclk, fun _ hi => exec_init_clears_mpend hi (exec_sdMask_stopped hinv hmask)⟩

end Sys2Proof.Machine
end

