-- ==== Sys2Proof/Proofs/Encoding.lean ====
section
/-! PROOFS. 30_encoding.md R80 to R86: the two fields of a word, what the opcode map answers for each, and from that
the round trips, the match and mask of every row and the illegal classes. -/
namespace Sys2Proof
variable {w : OpWord} {i j : Instr} {op imm : Nat}

/-! ## The two fields of a word -/

theorem opField_append (a : BitVec 8) (b : BitVec 24) : opField (a ++ b) = a.toNat := by
  rw [opField, BitVec.extractLsb'_append_eq_left]

theorem immField_append (a : BitVec 8) (b : BitVec 24) : immField (a ++ b) = b.toNat := by
  rw [immField, BitVec.extractLsb'_append_eq_right]

theorem immField_lt (w : OpWord) : immField w < 2 ^ 24 := BitVec.isLt _

/-- A word is its two fields side by side (30_encoding.md R80). -/
theorem ofNat_opField_append_immField (w : OpWord) :
    BitVec.ofNat 8 (opField w) ++ BitVec.ofNat 24 (immField w) = w := by
  rw [opField, immField, BitVec.ofNat_toNat, BitVec.ofNat_toNat, BitVec.setWidth_eq, BitVec.setWidth_eq]
  exact BitVec.extractLsb'_append_extractLsb'_eq_extractLsb' (by decide) |>.trans (BitVec.extractLsb'_eq_self)

theorem Instr.opcode_lt (i : Instr) : i.opcode < 2 ^ 8 := by
  cases i <;> simp [Instr.opcode]

/-- The operand of a well-formed operation is a 24-bit number (30_encoding.md R82). -/
theorem Instr.operand_lt (h : i.wellFormed = true) : i.operand < 2 ^ 24 := by
  cases i with
  | adv n | msadv n =>
    simp only [Instr.wellFormed, Bool.and_eq_true, decide_eq_true_eq] at h
    exact h.2
  | rbWrite len => exact of_decide_eq_true h
  | _ => decide

theorem opField_encode (i : Instr) : opField (encode i) = i.opcode := by
  rw [encode, opField_append, BitVec.toNat_ofNat, Nat.mod_eq_of_lt i.opcode_lt]

theorem immField_encode (h : i.wellFormed = true) : immField (encode i) = i.operand := by
  rw [encode, immField_append, BitVec.toNat_ofNat, Nat.mod_eq_of_lt (Instr.operand_lt h)]

/-- A word with the operation code and the operand of an operation is that operation's word. -/
theorem encode_eq_of_fields (hop : opField w = i.opcode) (himm : immField w = i.operand) : encode i = w := by
  rw [encode, ← hop, ← himm, ofNat_opField_append_immField]

/-! ## What the decoder of each kind of row answers -/

theorem decodeNoOperand_eq_op_iff : decodeNoOperand j imm = .op i ↔ imm = 0 ∧ j = i := by
  unfold decodeNoOperand
  split <;> simp [*]

theorem decodeInit_eq_op_iff :
    decodeInit imm = .op i ↔ (imm = 1 ∧ i = .init1) ∨ (imm = 0 ∧ i = .init0) := by
  unfold decodeInit
  split
  · simp [*, eq_comm]
  · split <;> simp [*, eq_comm]

theorem decodeAdvance_eq_op_iff : decodeAdvance j imm = .op i ↔ imm ≠ 0 ∧ j = i := by
  unfold decodeAdvance
  split <;> simp [*]

theorem decodeNoOperand_illegal_iff : (∃ why, decodeNoOperand j imm = .illegal why) ↔ imm ≠ 0 := by
  unfold decodeNoOperand
  split <;> simp [*]

theorem decodeInit_illegal_iff : (∃ why, decodeInit imm = .illegal why) ↔ imm / 2 ≠ 0 := by
  unfold decodeInit
  split
  · simp [*]
  · split
    · simp [*]
    · simp; omega

theorem decodeAdvance_illegal_iff : (∃ why, decodeAdvance j imm = .illegal why) ↔ imm = 0 := by
  unfold decodeAdvance
  split <;> simp [*]

/-! ## The opcode map of R83 -/

/-- The opcode map reads back the code and the operand of every well-formed operation. -/
theorem decodeFields_opcode_operand (h : i.wellFormed = true) : decodeFields i.opcode i.operand = .op i := by
  cases i with
  | adv n | msadv n =>
    simp only [Instr.wellFormed, Bool.and_eq_true, decide_eq_true_eq] at h
    exact decodeAdvance_eq_op_iff.2 ⟨by simp only [Instr.operand]; omega, rfl⟩
  | _ => rfl

/-- An operation the opcode map answers has the code and the operand it was read from, and with a 24-bit operand it is
well formed. -/
theorem fields_of_decodeFields (h : decodeFields op imm = .op i) (himm : imm < 2 ^ 24) :
    op = i.opcode ∧ imm = i.operand ∧ i.wellFormed = true := by
  unfold decodeFields at h
  split at h
  case h_2 =>
    obtain ⟨rfl, rfl⟩ | ⟨rfl, rfl⟩ := decodeInit_eq_op_iff.1 h
    · exact ⟨rfl, rfl, rfl⟩
    · exact ⟨rfl, rfl, rfl⟩
  case h_13 | h_14 =>
    obtain ⟨hpos, rfl⟩ := decodeAdvance_eq_op_iff.1 h
    exact ⟨rfl, rfl, by simp [Instr.wellFormed]; omega⟩
  case h_18 =>
    cases h
    exact ⟨rfl, rfl, decide_eq_true himm⟩
  case h_19 => cases h
  all_goals
    obtain ⟨rfl, rfl⟩ := decodeNoOperand_eq_op_iff.1 h
    exact ⟨rfl, rfl, rfl⟩

/-- The four classes of 30_encoding.md R84, on the two fields. -/
theorem decodeFields_illegal_iff : (∃ why, decodeFields op imm = .illegal why) ↔
    op ∉ [0x01, 0x02, 0x03, 0x04, 0x05, 0x10, 0x11, 0x12, 0x13, 0x20, 0x21, 0x22, 0x30, 0x31, 0x40, 0x41, 0x42,
      0x43] ∨
    (op ∈ [0x01, 0x03, 0x04, 0x05, 0x10, 0x11, 0x12, 0x13, 0x20, 0x21, 0x22, 0x40, 0x41, 0x42] ∧ imm ≠ 0) ∨
    (op = 0x02 ∧ imm / 2 ≠ 0) ∨ (op ∈ [0x30, 0x31] ∧ imm = 0) := by
  unfold decodeFields
  split
  case h_2 => simpa using decodeInit_illegal_iff
  case h_13 | h_14 => simpa using decodeAdvance_illegal_iff
  case h_18 => simp
  case h_19 => simp_all
  all_goals simpa using decodeNoOperand_illegal_iff

/-! ## The decoder -/

/-- A well-formed operation is decoded from exactly the word with its code and its operand. -/
theorem decode_eq_op_iff (h : i.wellFormed = true) :
    decode w = .op i ↔ opField w = i.opcode ∧ immField w = i.operand := by
  constructor
  · intro hd
    obtain ⟨hop, himm, -⟩ := fields_of_decodeFields hd (immField_lt w)
    exact ⟨hop, himm⟩
  · rintro ⟨hop, himm⟩
    rw [decode, hop, himm, decodeFields_opcode_operand h]

theorem decode_encode (h : i.wellFormed = true) : decode (encode i) = .op i :=
  (decode_eq_op_iff h).2 ⟨opField_encode i, immField_encode h⟩

/-- Settles O6: the fields of the encoded word are the code and the operand, and the opcode map reads them back. -/
theorem decodeOfEncodeIsTheOperation : Obligations.DecodeOfEncodeIsTheOperation :=
  fun _ => decode_encode

theorem wellFormed_and_encode_of_decode (h : decode w = .op i) : i.wellFormed = true ∧ encode i = w := by
  obtain ⟨hop, himm, hwf⟩ := fields_of_decodeFields h (immField_lt w)
  exact ⟨hwf, encode_eq_of_fields hop himm⟩

/-- Settles O7: a legal word's fields are the code and the operand of its operation, and a word is its fields. -/
theorem everyLegalWordIsTheWordOfItsOperation : Obligations.EveryLegalWordIsTheWordOfItsOperation :=
  fun _ _ => wellFormed_and_encode_of_decode

/-! ## Match and mask (R83) -/

/-- Under its row's mask the word of every operation is its row's match. -/
theorem encode_and_rowMask (i : Instr) : encode i &&& i.rowMask = i.rowMatch := by
  cases i with
  | adv n => exact Laws.EncodingRow.adv n
  | msadv n => exact Laws.EncodingRow.msadv n
  | rbWrite len => exact Laws.EncodingRow.rbWrite len
  | _ => decide

/-- Every row's mask keeps the operation code. -/
theorem opField_and_rowMask (w : OpWord) (i : Instr) : opField (w &&& i.rowMask) = opField w := by
  have hmask : i.rowMask.extractLsb' 24 8 = BitVec.allOnes 8 := by
    unfold Instr.rowMask
    split <;> decide
  rw [opField, BitVec.extractLsb'_and, hmask, BitVec.and_allOnes, opField]

theorem opField_rowMatch (i : Instr) : opField i.rowMatch = i.opcode := by
  rw [← encode_and_rowMask, opField_and_rowMask, opField_encode]

/-- Settles O8: the mask keeps the operation code, so the match says the code, and the operand is the other field. -/
theorem decodeFollowsMatchAndMask : Obligations.DecodeFollowsMatchAndMask := by
  intro w i hwf
  constructor
  · intro hd
    obtain ⟨-, rfl⟩ := wellFormed_and_encode_of_decode hd
    exact ⟨encode_and_rowMask i, immField_encode hwf⟩
  · rintro ⟨hmatch, himm⟩
    refine (decode_eq_op_iff hwf).2 ⟨?_, himm⟩
    rw [← opField_and_rowMask w i, hmatch, opField_rowMatch]

/-- Settles O9: the opcode map is illegal on these pairs of fields and no others. -/
theorem illegalWordsAreTheFourClasses : Obligations.IllegalWordsAreTheFourClasses :=
  fun _ => decodeFields_illegal_iff

/-- Settles O5: each word's fields are read off its digits. -/
theorem writtenWordsDecode : Obligations.WrittenWordsDecode := by
  unfold Obligations.WrittenWordsDecode
  decide

end Sys2Proof
end

