-- ==== Sys2Proof/Proofs/Operations.lean ====
section
/-! PROOFS. What holds of every operation alike: when it steps, what it leaves unchanged, what it returns, which
phases follow (10_state.md R20, 30_encoding.md R89 and R90, 40_pulse_generator.md R111). -/
namespace Sys2Proof.Machine
variable {i : Instr} {s t : State} {q : Reg} {r : Regs}

/-! ## When an operation steps -/

theorem guarded_steps_iff {g : Prop} [Decidable g] {u : State} : (∃ t, guarded i g u = .next t) ↔ g := by
  simp [guarded_eq_next_iff]

theorem stopped_iff : Stopped r ↔ r.hpc = .idle ∧ r.pgpc = .idle ∧ r.scpc = .idle ∧ r.mien = false ∧
    r.swarm = false ∧ r.clken = false := by
  simp only [Stopped, Quiescent, and_assoc]

theorem exec_steps_iff_enabled (i : Instr) (s : State) : (∃ t, exec i s = .next t) ↔ Enabled s i := by
  cases i with
  | reset | adv | msadv | rdduty | rbOpen | rbRead | rbWrite => exact ⟨fun _ => trivial, fun _ => ⟨_, rfl⟩⟩
  | init1 | init0 => exact guarded_steps_iff.trans stopped_iff
  | _ => exact guarded_steps_iff

theorem exec_ne_fault (i : Instr) (s : State) (f : Fault) : exec i s ≠ .fault f := by
  cases i with
  | reset | adv | msadv | rdduty | rbOpen | rbRead | rbWrite => exact nofun
  | _ => exact guarded_ne_fault

/-- Settles O38: the operations without a guard always step, the others are guarded by their "Enabled when". -/
theorem operationsStepExactlyWhenEnabled : Obligations.OperationsStepExactlyWhenEnabled :=
  fun i s => ⟨exec_steps_iff_enabled i s, exec_ne_fault i s⟩

theorem enabled_of_exec (h : exec i s = .next t) : Enabled s i := (exec_steps_iff_enabled i s).1 ⟨t, h⟩

/-- An operation that is not enabled is refused: it cannot step, and nothing stops the block with a fault. -/
theorem exec_refused_of_not_enabled (h : ¬Enabled s i) : ∃ r, exec i s = .refused r := by
  cases hexec : exec i s with
  | next t => exact absurd (enabled_of_exec hexec) h
  | fault f => exact absurd hexec (exec_ne_fault i s f)
  | refused r => exact ⟨r, rfl⟩

/-! ## What an operation leaves unchanged -/

/-- An operation leaves every register that the table of writers does not name for it (10_state.md R20). -/
theorem exec_frame (h : exec i s = .next t) (hq : q ∉ writers i) : t.regs.read q = s.regs.read q := by
  revert hq
  cases i with
  | reset | adv | msadv | rbOpen | rbWrite =>
    cases h
    cases q <;> simp [writers, Regs.read, State.drew, State.emit]
  | rdduty =>
    obtain ⟨-, rfl⟩ | ⟨-, rfl⟩ := exec_rdduty_next h
    · simp
    · cases q <;> simp [writers, Regs.read]
  | rbRead =>
    obtain ⟨-, rfl⟩ | ⟨-, _, -, rfl⟩ | ⟨-, -, rfl⟩ := exec_rbRead_next h
    · simp
    · cases q <;> simp [writers, Regs.read]
    · cases q <;> simp [writers, Regs.read]
  | pgOut =>
    obtain ⟨-, _, _, rfl, -⟩ := exec_pgOut_next h
    cases q <;> simp [writers, Regs.read]
  | _ =>
    obtain ⟨-, rfl⟩ := guarded_eq_next_iff.1 h
    cases q <;> simp [writers, Regs.read]

/-- Settles O39: by the operation, then by the register. -/
theorem operationsWriteOnlyTheirRegisters : Obligations.OperationsWriteOnlyTheirRegisters :=
  fun _ _ _ _ h hq => exec_frame h hq

/-- No operation touches the parameters or the words still to be taken (00_scope.md R6, 30_encoding.md R89). -/
theorem exec_params_trace (h : exec i s = .next t) : t.params = s.params ∧ t.trace = s.trace := by
  cases i with
  | reset | adv | msadv | rbOpen | rbWrite =>
    cases h
    exact ⟨rfl, rfl⟩
  | rdduty => obtain ⟨-, rfl⟩ | ⟨-, rfl⟩ := exec_rdduty_next h <;> exact ⟨rfl, rfl⟩
  | rbRead => obtain ⟨-, rfl⟩ | ⟨-, _, -, rfl⟩ | ⟨-, -, rfl⟩ := exec_rbRead_next h <;> exact ⟨rfl, rfl⟩
  | pgOut =>
    obtain ⟨-, _, _, rfl, -⟩ := exec_pgOut_next h
    exact ⟨rfl, rfl⟩
  | _ =>
    obtain ⟨-, rfl⟩ := guarded_eq_next_iff.1 h
    exact ⟨rfl, rfl⟩

theorem exec_params (h : exec i s = .next t) : t.params = s.params := (exec_params_trace h).1

theorem exec_trace (h : exec i s = .next t) : t.trace = s.trace := (exec_params_trace h).2

/-! ## What an operation returns and puts out -/

/-- PG.OUT, RESET and INIT put out the value PWMDUTY then holds (30_encoding.md R90; log 7). -/
theorem exec_pwmSeq_append (h : exec i s = .next t) (hi : i ∈ [Instr.pgOut, .reset, .init1, .init0]) :
    t.pwmSeq = s.pwmSeq ++ [t.regs.pwmduty] := by
  simp only [List.mem_cons, List.not_mem_nil, or_false] at hi
  obtain rfl | rfl | rfl | rfl := hi
  · obtain ⟨-, _, _, rfl, -⟩ := exec_pgOut_next h
    rfl
  · cases h
    rfl
  · obtain ⟨-, rfl⟩ := guarded_eq_next_iff.1 h
    rfl
  · obtain ⟨-, rfl⟩ := guarded_eq_next_iff.1 h
    rfl

theorem exec_pwmSeq_eq (h : exec i s = .next t) (hi : i ∉ [Instr.pgOut, .reset, .init1, .init0]) :
    t.pwmSeq = s.pwmSeq := by
  cases i with
  | reset | pgOut | init1 | init0 => simp at hi
  | adv | msadv | rbOpen | rbWrite =>
    cases h
    rfl
  | rdduty => obtain ⟨-, rfl⟩ | ⟨-, rfl⟩ := exec_rdduty_next h <;> rfl
  | rbRead => obtain ⟨-, rfl⟩ | ⟨-, _, -, rfl⟩ | ⟨-, -, rfl⟩ := exec_rbRead_next h <;> rfl
  | _ =>
    obtain ⟨-, rfl⟩ := guarded_eq_next_iff.1 h
    rfl

/-- INIT returns the status it records (44_lifecycle.md R182, R183). -/
theorem exec_init_returned (h : exec i s = .next t) (hi : i = .init1 ∨ i = .init0) :
    t.returned = s.returned ++ [.initStatus t.regs.initstat] := by
  obtain rfl | rfl := hi
  · obtain ⟨-, rfl⟩ := guarded_eq_next_iff.1 h
    rfl
  · obtain ⟨-, rfl⟩ := guarded_eq_next_iff.1 h
    rfl

theorem exec_rdduty_of_mem (h : InDutyDomain s.regs.dutyval) :
    exec .rdduty s = .next (s.emit (.duty s.regs.dutyval)) :=
  congrArg Host.Outcome.next (if_pos h)

theorem exec_rdduty_of_not_mem (h : ¬InDutyDomain s.regs.dutyval) :
    exec .rdduty s = .next s.raiseInvariantViolation :=
  congrArg Host.Outcome.next (if_neg h)

/-- Every later read of a session returns the empty string (42_readback.md R143). -/
theorem exec_rbRead_of_done (h : s.regs.rbdone = true) : exec .rbRead s = .next (s.emit (.text [])) :=
  congrArg Host.Outcome.next (if_pos h)

theorem exec_rbRead_of_label {cs : List Char} (hfirst : s.regs.rbdone = false)
    (hlabel : angleText s.regs.dutyval = some cs) :
    exec .rbRead s = .next ({ s with regs.rbdone := true }.emit (.text cs)) := by
  simp [exec, execRbRead, hfirst, hlabel]

theorem exec_rbRead_of_not_mem (hfirst : s.regs.rbdone = false) (hout : ¬InDutyDomain s.regs.dutyval) :
    exec .rbRead s = .next s.raiseInvariantViolation := by
  have hlabel : angleText s.regs.dutyval = none := by
    rw [← Option.not_isSome_iff_eq_none, angleText_isSome_iff]
    exact hout
  simp [exec, execRbRead, hfirst, hlabel]

/-- RB.READ returns one string unless it records the violation (42_readback.md R143). -/
theorem exec_rbRead_returned (h : exec .rbRead s = .next t)
    (hread : s.regs.rbdone = true ∨ InDutyDomain s.regs.dutyval) :
    ∃ label, t.returned = s.returned ++ [.text label] := by
  obtain ⟨-, rfl⟩ | ⟨-, label, -, rfl⟩ | ⟨hfirst, hout, -⟩ := exec_rbRead_next h
  · exact ⟨[], rfl⟩
  · exact ⟨label, rfl⟩
  · simp [hfirst, hout] at hread

theorem exec_returned_eq (h : exec i s = .next t) (hwrite : ∀ len, i ≠ .rbWrite len)
    (hi : i ∉ [Instr.init1, .init0, .rdduty, .rbRead]) : t.returned = s.returned := by
  cases i with
  | init1 | init0 | rdduty | rbRead => simp at hi
  | rbWrite len => exact absurd rfl (hwrite len)
  | reset | adv | msadv | rbOpen =>
    cases h
    rfl
  | pgOut =>
    obtain ⟨-, _, _, rfl, -⟩ := exec_pgOut_next h
    rfl
  | _ =>
    obtain ⟨-, rfl⟩ := guarded_eq_next_iff.1 h
    rfl

/-- Settles O41: one lemma for each of the two lists and each returning operation. -/
theorem operationsReturnWhatTheSpecSays : Obligations.OperationsReturnWhatTheSpecSays := by
  intro i s t h
  refine ⟨exec_params h, exec_trace h, exec_pwmSeq_eq h, exec_pwmSeq_append h, exec_init_returned h, ?_, ?_, ?_, ?_, ?_,
    exec_returned_eq h⟩
  · rintro rfl hin
    cases (exec_rdduty_of_mem hin).symm.trans h
    rfl
  · rintro rfl hout
    cases (exec_rdduty_of_not_mem hout).symm.trans h
    rfl
  · rintro rfl hread
    exact exec_rbRead_returned h hread
  · rintro rfl hfirst hout
    cases (exec_rbRead_of_not_mem hfirst hout).symm.trans h
    rfl
  · rintro len rfl
    cases h
    rfl

/-! ## Which phases follow -/

/-- The successor table of 40_pulse_generator.md R111, row by row. -/
theorem exec_phases (h : exec i s = .next t) : t.regs.phases = phasesAfter s i := by
  cases i with
  | reset | adv | msadv | rbOpen | rbWrite =>
    cases h
    rfl
  | rdduty => obtain ⟨-, rfl⟩ | ⟨-, rfl⟩ := exec_rdduty_next h <;> simp [phasesAfter, Regs.phases]
  | rbRead =>
    obtain ⟨-, rfl⟩ | ⟨-, _, -, rfl⟩ | ⟨-, -, rfl⟩ := exec_rbRead_next h <;> simp [phasesAfter, Regs.phases]
  | pgOut =>
    obtain ⟨-, _, _, rfl, -⟩ := exec_pgOut_next h
    rfl
  | _ =>
    obtain ⟨-, rfl⟩ := guarded_eq_next_iff.1 h
    rfl

/-- Settles O42: the phases an operation leaves are those its meaning writes. -/
theorem phasesFollowTheSuccessorTable : Obligations.PhasesFollowTheSuccessorTable :=
  fun _ _ _ h => exec_phases h

theorem exec_pgpc (h : exec i s = .next t) : t.regs.pgpc = (phasesAfter s i).pg := by
  rw [← exec_phases h]
  rfl

theorem exec_scpc (h : exec i s = .next t) : t.regs.scpc = (phasesAfter s i).sc := by
  rw [← exec_phases h]
  rfl

/-! ## Registers as fields -/

@[simp] theorem Direction.code_inj {a b : Direction} : a.code = b.code ↔ a = b := by cases a <;> cases b <;> decide
@[simp] theorem FaultCode.code_inj {a b : FaultCode} : a.code = b.code ↔ a = b := by cases a <;> cases b <;> decide
@[simp] theorem InitStatus.code_inj {a b : InitStatus} : a.code = b.code ↔ a = b := by cases a <;> cases b <;> decide
@[simp] theorem PgPhase.code_inj {a b : PgPhase} : a.code = b.code ↔ a = b := by cases a <;> cases b <;> decide
@[simp] theorem ScPhase.code_inj {a b : ScPhase} : a.code = b.code ↔ a = b := by cases a <;> cases b <;> decide
@[simp] theorem HostPhase.code_inj {a b : HostPhase} : a.code = b.code ↔ a = b := by cases a <;> cases b <;> decide

@[simp] theorem toNat_bool_inj {a b : Bool} : a.toNat = b.toNat ↔ a = b := by cases a <;> cases b <;> decide

/-! ## FAULT -/

/-- The exception sets FAULT only where it was 0 (60_exceptions.md R201). -/
theorem raise_fault_cases (s : State) : s.raiseInvariantViolation.regs.fault = s.regs.fault ∨
    s.regs.fault = .none ∧ s.raiseInvariantViolation.regs.fault = .invariantViolation := by
  cases h : s.regs.fault <;> simp

/-- Settles O44: the table of writers leaves RESET, which clears FAULT, and the two reads, which raise. -/
theorem faultIsStickyAndRaisedOnlyAtReadback : Obligations.FaultIsStickyAndRaisedOnlyAtReadback := by
  intro i s t h
  cases i with
  | reset =>
    cases h
    exact .inr (.inl ⟨rfl, rfl⟩)
  | rdduty =>
    obtain ⟨-, rfl⟩ | ⟨hout, rfl⟩ := exec_rdduty_next h
    · exact .inl rfl
    · exact (raise_fault_cases s).imp_right fun hraised => .inr ⟨.inl rfl, hout, hraised⟩
  | rbRead =>
    obtain ⟨-, rfl⟩ | ⟨-, _, -, rfl⟩ | ⟨-, hout, rfl⟩ := exec_rbRead_next h
    · exact .inl rfl
    · exact .inl rfl
    · exact (raise_fault_cases s).imp_right fun hraised => .inr ⟨.inr rfl, hout, hraised⟩
  | _ => exact .inl (FaultCode.code_inj.1 (exec_frame (q := .FAULT) h (by simp [writers])))

/-! ## Priority as guards -/

theorem pgpc_idle_of_enabled
    (hi : i ∈ [Instr.scUpd, .scBnd, .scArm, .init1, .init0, .sdDisarm, .sdClkoff, .sdMask]) (h : Enabled s i) :
    s.regs.pgpc = .idle := by
  cases i with
  | reset | adv | msadv | rdduty | rbOpen | rbRead | rbWrite | pgAck | pgRearm | pgChk | pgOut => simp at hi
  | scUpd | init1 | init0 | sdDisarm =>
    obtain ⟨-, hpg, -⟩ := h
    exact hpg
  | scBnd | scArm | sdClkoff | sdMask =>
    obtain ⟨-, hpg⟩ := h
    exact hpg

theorem scpc_idle_of_enabled (hi : i ∈ [Instr.init1, .init0, .sdDisarm]) (h : Enabled s i) : s.regs.scpc = .idle := by
  simp only [List.mem_cons, List.not_mem_nil, or_false] at hi
  obtain rfl | rfl | rfl := hi
  · obtain ⟨-, -, hsc, -⟩ := h
    exact hsc
  · obtain ⟨-, -, hsc, -⟩ := h
    exact hsc
  · obtain ⟨-, -, hsc⟩ := h
    exact hsc

/-- A shutdown under way past its first step excludes a sweep tick (44_lifecycle.md R184; log 10). -/
theorem not_enabled_shutdown_of_tick (hinv : LifecycleInvariant s.regs) (htick : s.regs.scpc ≠ .idle)
    (hi : i ∈ [Instr.sdClkoff, .sdMask]) : ¬Enabled s i := by
  obtain ⟨-, -, hidle⟩ := hinv.tick_started htick
  simp only [List.mem_cons, List.not_mem_nil, or_false] at hi
  obtain rfl | rfl := hi
  · simp [Enabled, hidle]
  · simp [Enabled, hidle]

/-- Each phase of an invocation has its operation (40_pulse_generator.md R111). -/
theorem invocation_goes_on (h : s.regs.pgpc ≠ .idle) :
    ∃ i ∈ [Instr.pgRearm, .pgChk, .pgOut], ∃ t, exec i s = .next t := by
  cases hphase : s.regs.pgpc with
  | idle => exact absurd hphase h
  | rearm => exact ⟨.pgRearm, by simp, (exec_steps_iff_enabled _ s).2 hphase⟩
  | chk => exact ⟨.pgChk, by simp, (exec_steps_iff_enabled _ s).2 hphase⟩
  | out => exact ⟨.pgOut, by simp, (exec_steps_iff_enabled _ s).2 hphase⟩

theorem invocation_ends_by_pgOut_or_reset (hbusy : s.regs.pgpc ≠ .idle) (h : exec i s = .next t)
    (hidle : t.regs.pgpc = .idle) : i = .pgOut ∨ i = .reset := by
  rw [exec_pgpc h] at hidle
  cases i with
  | pgOut | reset => simp
  | pgAck | pgRearm => cases hidle
  | pgChk =>
    simp only [phasesAfter] at hidle
    split at hidle <;> cases hidle
  | _ => exact absurd hidle hbusy

/-- Settles O43: the refusals are guards that fail, the rest is the successor table. -/
theorem noSweepInitOrShutdownInsideAnInvocation : Obligations.NoSweepInitOrShutdownInsideAnInvocation :=
  ⟨fun _ hbusy _ hi => exec_refused_of_not_enabled fun hen => hbusy (pgpc_idle_of_enabled hi hen),
    fun _ => invocation_goes_on, fun _ _ _ => invocation_ends_by_pgOut_or_reset,
    fun _ htick _ hi => exec_refused_of_not_enabled fun hen => htick (scpc_idle_of_enabled hi hen),
    fun _ hinv htick _ hi => exec_refused_of_not_enabled (not_enabled_shutdown_of_tick hinv htick hi),
    fun _ hidle hpend hien => ⟨_, exec_pgAck_of_enabled hidle ⟨hpend, hien⟩⟩⟩

/-! ## Disarming, and the state after RESET -/

/-- With the sweep timer disarmed and no tick in progress, only INIT 1 arms it: SC.ARM needs a tick in progress. -/
theorem exec_keeps_disarmed (harm : s.regs.swarm = false) (hidle : s.regs.scpc = .idle) (hi : i ≠ .init1)
    (h : exec i s = .next t) : t.regs.swarm = false := by
  cases i with
  | init1 => exact absurd rfl hi
  | reset =>
    cases h
    rfl
  | init0 | sdDisarm | scUpd =>
    obtain ⟨-, rfl⟩ := guarded_eq_next_iff.1 h
    rfl
  | scArm =>
    obtain ⟨⟨htick, -⟩, -⟩ := exec_scArm_next h
    simp [hidle] at htick
  | _ => exact (toNat_bool_inj.1 (exec_frame (q := .SWARM) h (by simp [writers]))).trans harm

/-- A sweep tick starts with SC.UPD alone, which needs an armed timer (41_sweep_controller.md R121). -/
theorem exec_keeps_sweep_idle (harm : s.regs.swarm = false) (hidle : s.regs.scpc = .idle)
    (h : exec i s = .next t) : t.regs.scpc = .idle := by
  rw [exec_scpc h]
  cases i with
  | reset | scArm => rfl
  | scUpd =>
    obtain ⟨⟨-, -, harmed, -⟩, -⟩ := exec_scUpd_next h
    simp [harm] at harmed
  | scBnd =>
    obtain ⟨⟨htick, -⟩, -⟩ := exec_scBnd_next h
    simp [hidle] at htick
  | _ => exact hidle

/-- Settles O37: SC.UPD needs an armed timer, and no operation but INIT 1 arms it outside a sweep tick. -/
theorem disarmIsFinal : Obligations.DisarmIsFinal :=
  fun _ harm hidle => ⟨exec_refused_of_not_enabled (i := .scUpd) (by simp [Enabled, harm]),
    fun _ _ hi h => ⟨exec_keeps_disarmed harm hidle hi h, exec_keeps_sweep_idle harm hidle h⟩⟩

/-- Settles O30: after RESET the block is stopped, so of the guards only those of INIT and SD.DISARM hold. -/
theorem afterResetOnlyTheHostAndTheTimersMove : Obligations.AfterResetOnlyTheHostAndTheTimersMove := by
  intro s t h i
  cases h
  rw [exec_steps_iff_enabled]
  cases i <;> simp [Enabled, State.drew]

end Sys2Proof.Machine
end

