-- ==== Sys2Proof/Proofs/Dependence.lean ====
section
/-! PROOFS. What an operation does depends only on the registers it reads or writes (10_state.md R20). -/
namespace Sys2Proof.Machine
variable {i : Instr} {s s' t t' : State} {q : Reg}

/-- The two states have equal parameters and the same free values ahead, and agree on what `i` reads or writes. -/
structure AgreeFor (i : Instr) (s s' : State) : Prop where
  params : s'.params = s.params
  nextFree : s'.nextFree = s.nextFree
  regs : ∀ q ∈ readers i ++ writers i, s'.regs.read q = s.regs.read q

/-- A guard reads only registers its operation reads or writes. -/
theorem AgreeFor.enabled (h : AgreeFor i s s') (hen : Enabled s i) : Enabled s' i := by
  obtain ⟨hparams, -, hregs⟩ := h
  cases i <;> simp_all [Enabled, readers, writers, Regs.read]

theorem AgreeFor.anyValue (h : AgreeFor i s s') (k w : Nat) : s'.anyValue k w = s.anyValue k w := by
  rw [State.anyValue, State.anyValue, h.nextFree]

/-- RDDUTY takes the same of its two ways, and returns the same value. -/
theorem AgreeFor.rdduty (h : AgreeFor .rdduty s s') (ht : exec .rdduty s = .next t) (ht' : exec .rdduty s' = .next t') :
    (∃ o, t = s.emit o ∧ t' = s'.emit o) ∨ (t = s.raiseInvariantViolation ∧ t' = s'.raiseInvariantViolation) := by
  have hduty : s'.regs.dutyval = s.regs.dutyval := h.regs .DUTYVAL (by decide)
  obtain ⟨hin, rfl⟩ | ⟨hout, rfl⟩ := exec_rdduty_next ht
  · cases (exec_rdduty_of_mem (hduty ▸ hin)).symm.trans ht'
    exact .inl ⟨_, rfl, by rw [hduty]⟩
  · cases (exec_rdduty_of_not_mem (hduty ▸ hout)).symm.trans ht'
    exact .inr ⟨rfl, rfl⟩

/-- RB.READ takes the same of its three ways, and returns the same string. -/
theorem AgreeFor.rbRead (h : AgreeFor .rbRead s s') (ht : exec .rbRead s = .next t) (ht' : exec .rbRead s' = .next t') :
    (∃ o, t = s.emit o ∧ t' = s'.emit o) ∨
    (∃ o, t = { s with regs.rbdone := true }.emit o ∧ t' = { s' with regs.rbdone := true }.emit o) ∨
    (t = s.raiseInvariantViolation ∧ t' = s'.raiseInvariantViolation) := by
  have hduty : s'.regs.dutyval = s.regs.dutyval := h.regs .DUTYVAL (by decide)
  have hdone : s'.regs.rbdone = s.regs.rbdone := toNat_bool_inj.1 (h.regs .RBDONE (by decide))
  obtain ⟨hread, rfl⟩ | ⟨hfirst, cs, hlabel, rfl⟩ | ⟨hfirst, hout, rfl⟩ := exec_rbRead_next ht
  · cases (exec_rbRead_of_done (hdone.trans hread)).symm.trans ht'
    exact .inl ⟨_, rfl, rfl⟩
  · cases (exec_rbRead_of_label (hdone.trans hfirst) (hduty ▸ hlabel)).symm.trans ht'
    exact .inr (.inl ⟨_, rfl, rfl⟩)
  · cases (exec_rbRead_of_not_mem (hdone.trans hfirst) (hduty ▸ hout)).symm.trans ht'
    exact .inr (.inr ⟨rfl, rfl⟩)

/-- What is written is computed from what is read or written, the parameters and the free values. -/
theorem AgreeFor.writes (h : AgreeFor i s s') (ht : exec i s = .next t) (ht' : exec i s' = .next t') :
    ∀ q ∈ writers i, t'.regs.read q = t.regs.read q := by
  have hany := h.anyValue
  have ⟨hparams, _, hregs⟩ := h
  cases i with
  | reset | adv | msadv | rbOpen | rbWrite =>
    cases ht
    cases ht'
    simp_all [readers, writers, Regs.read, State.drew, ticksToMatch]
  | rdduty =>
    obtain ⟨o, rfl, rfl⟩ | ⟨rfl, rfl⟩ := h.rdduty ht ht' <;> simp_all [readers, writers, Regs.read]
  | rbRead =>
    obtain ⟨o, rfl, rfl⟩ | ⟨o, rfl, rfl⟩ | ⟨rfl, rfl⟩ := h.rbRead ht ht' <;> simp_all [readers, writers, Regs.read]
  | pgOut =>
    obtain ⟨_, v, n, rfl, hon, hoff⟩ := exec_pgOut_next ht
    obtain ⟨_, v', n', rfl, hon', hoff'⟩ := exec_pgOut_next ht'
    cases hc : s.regs.clken <;> simp_all [readers, writers, Regs.read, gatedDuty]
  | _ =>
    obtain ⟨-, rfl⟩ := guarded_eq_next_iff.1 ht
    obtain ⟨-, rfl⟩ := guarded_eq_next_iff.1 ht'
    simp_all [readers, writers, Regs.read, nextDuty, boundaryDir]

/-- What is returned is computed from what is read or written. -/
theorem AgreeFor.returns (h : AgreeFor i s s') (ht : exec i s = .next t) (ht' : exec i s' = .next t') :
    ∃ out, t.returned = s.returned ++ out ∧ t'.returned = s'.returned ++ out := by
  cases i with
  | init1 | init0 =>
    have hstat : t'.regs.initstat = t.regs.initstat := InitStatus.code_inj.1 (h.writes ht ht' .INITSTAT (by decide))
    exact ⟨_, exec_init_returned ht (by simp), by rw [exec_init_returned ht' (by simp), hstat]⟩
  | rdduty =>
    obtain ⟨o, rfl, rfl⟩ | ⟨rfl, rfl⟩ := h.rdduty ht ht'
    · exact ⟨[o], rfl, rfl⟩
    · exact ⟨[], by simp⟩
  | rbRead =>
    obtain ⟨o, rfl, rfl⟩ | ⟨o, rfl, rfl⟩ | ⟨rfl, rfl⟩ := h.rbRead ht ht'
    · exact ⟨[o], rfl, rfl⟩
    · exact ⟨[o], rfl, rfl⟩
    · exact ⟨[], by simp⟩
  | rbWrite len =>
    cases ht
    cases ht'
    exact ⟨[.accepted], rfl, rfl⟩
  | _ => exact ⟨[], by simp [exec_returned_eq ht], by simp [exec_returned_eq ht']⟩

/-- An operation that puts out a value writes PWMDUTY, so the two states put out the same. -/
theorem AgreeFor.outputs (h : AgreeFor i s s') (ht : exec i s = .next t) (ht' : exec i s' = .next t') :
    ∃ out, t.pwmSeq = s.pwmSeq ++ out ∧ t'.pwmSeq = s'.pwmSeq ++ out := by
  by_cases hi : i ∈ [Instr.pgOut, .reset, .init1, .init0]
  · have hwrites : Reg.PWMDUTY ∈ writers i := by
      simp only [List.mem_cons, List.not_mem_nil, or_false] at hi
      obtain rfl | rfl | rfl | rfl := hi <;> decide
    have hduty : t'.regs.pwmduty = t.regs.pwmduty := h.writes ht ht' .PWMDUTY hwrites
    exact ⟨_, exec_pwmSeq_append ht hi, by rw [exec_pwmSeq_append ht' hi, hduty]⟩
  · exact ⟨[], by simp [exec_pwmSeq_eq ht hi], by simp [exec_pwmSeq_eq ht' hi]⟩

/-- Settles O40: the guard, the writes and the two lists agree, each by its own lemma. -/
theorem operationsDependOnlyOnTheirRegisters : Obligations.OperationsDependOnlyOnTheirRegisters := by
  intro i s s' t hparams hfree hregs ht
  have h : AgreeFor i s s' := ⟨hparams, hfree, hregs⟩
  obtain ⟨t', ht'⟩ := (exec_steps_iff_enabled i s').2 (h.enabled (enabled_of_exec ht))
  obtain ⟨ret, hret, hret'⟩ := h.returns ht ht'
  obtain ⟨seq, hseq, hseq'⟩ := h.outputs ht ht'
  refine ⟨t', ht', h.writes ht ht', fun out hout => ?_, fun out hout => ?_⟩
  · rw [hret', List.append_cancel_left (hret.symm.trans hout)]
  · rw [hseq', List.append_cancel_left (hseq.symm.trans hout)]

end Sys2Proof.Machine
end

