-- ==== Sys2Proof/Proofs/Invariants.lean ====
section
/-! PROOFS. What every step keeps: the duty invariant, the lifecycle invariant, the widths, the recorded output; and
that reset meets each (10_state.md section 9, 60_exceptions.md section 5, 00_scope.md R8). -/
namespace Sys2Proof.Machine
variable {i : Instr} {s t : State} {p : Config.Params} {r r' : Regs}

/-! ## The duty invariant -/

theorem DutyInvariant.congr (h : DutyInvariant r) (hduty : r'.dutyval = r.dutyval) (hdir : r'.dir = r.dir)
    (hsc : r'.scpc = r.scpc) : DutyInvariant r' := by
  constructor
  · rw [hduty]
    exact h.domain
  · rw [hduty, hdir, hsc]
    exact h.increasing
  · rw [hduty, hdir, hsc]
    exact h.decreasing

/-- At the left end, moving right (44_lifecycle.md R182). -/
theorem DutyInvariant.of_start (hduty : r.dutyval = 110) (hdir : r.dir = .increasing) : DutyInvariant r := by
  constructor <;> simp [hduty, hdir]

/-- The next duty value is again one of the seven: the direction points away from an end outside SC.BND's window. -/
theorem DutyInvariant.nextDuty_mem (hp : p.Ok) (h : DutyInvariant r) (hsc : r.scpc ≠ .bnd) :
    nextDuty p r ∈ Config.dutyDomain := by
  obtain ⟨-, hmax, -⟩ := dutyDomain_bounds h.domain
  have hdomain := h.domain
  simp only [List.mem_cons, List.not_mem_nil, or_false] at hdomain ⊢
  cases hdir : r.dir with
  | increasing =>
    have hlt := h.increasing hsc hdir
    rw [nextDuty_of_increasing hp hdir (by omega)]
    omega
  | decreasing =>
    have hgt := h.decreasing hsc hdir
    rw [nextDuty_of_decreasing hp hdir hgt hmax]
    omega

/-- The boundary check turns the direction away from the end the value has reached (41_sweep_controller.md R122). -/
theorem DutyInvariant.of_boundaryDir (hdomain : r.dutyval ∈ Config.dutyDomain) :
    DutyInvariant { r with dir := boundaryDir r, scpc := .arm } := by
  obtain ⟨hmin, hmax, -⟩ := dutyDomain_bounds hdomain
  refine ⟨hdomain, fun _ hdir => ?_, fun _ hdir => ?_⟩
  · have hright : r.dutyval ≠ 470 := by
      intro heq
      cases h : r.dir <;> simp_all [boundaryDir]
    exact lt_of_le_of_ne hmax hright
  · have hleft : r.dutyval ≠ 110 := by
      intro heq
      cases h : r.dir <;> simp_all [boundaryDir]
    exact lt_of_le_of_ne hmin hleft.symm

theorem exec_keeps_dutyInvariant (hp : s.params.Ok) (hinv : DutyInvariant s.regs) (h : exec i s = .next t) :
    DutyInvariant t.regs := by
  cases i with
  | reset =>
    cases h
    exact .of_start rfl rfl
  | init1 | init0 =>
    obtain ⟨-, rfl⟩ := guarded_eq_next_iff.1 h
    exact .of_start rfl rfl
  | scUpd =>
    obtain ⟨⟨hidle, -⟩, rfl⟩ := exec_scUpd_next h
    exact ⟨hinv.nextDuty_mem hp (by simp [hidle]), fun hsc => absurd rfl hsc, fun hsc => absurd rfl hsc⟩
  | scBnd =>
    obtain ⟨-, rfl⟩ := exec_scBnd_next h
    exact .of_boundaryDir hinv.domain
  | scArm =>
    obtain ⟨⟨harm, -⟩, rfl⟩ := exec_scArm_next h
    exact ⟨hinv.domain, fun _ => hinv.increasing (by simp [harm]), fun _ => hinv.decreasing (by simp [harm])⟩
  | _ =>
    exact hinv.congr (exec_frame (q := .DUTYVAL) h (by simp [writers]))
      (Direction.code_inj.1 (exec_frame (q := .DIR) h (by simp [writers])))
      (ScPhase.code_inj.1 (exec_frame (q := .SCPC) h (by simp [writers])))

/-- Settles O45: only RESET, INIT and the three sweep operations touch the three registers the invariant is about. -/
theorem everyStepKeepsTheDutyInvariant : Obligations.EveryStepKeepsTheDutyInvariant := by
  intro s t hp hinv h
  obtain ⟨w, rest, i, -, -, hrun⟩ := step_eq_next_cases h
  exact ⟨(exec_params hrun).symm ▸ hp, exec_keeps_dutyInvariant (s := { s with trace := rest }) hp hinv hrun⟩

/-! ## The lifecycle invariant -/

theorem LifecycleInvariant.congr (h : LifecycleInvariant r) (hsc : r'.scpc = r.scpc) (harm : r'.swarm = r.swarm)
    (hien : r'.mien = r.mien) (hclk : r'.clken = r.clken) (hhost : r'.hpc = r.hpc) (hpg : r'.pgpc = r.pgpc) :
    LifecycleInvariant r' := by
  obtain ⟨h1, h2, h3, h4, h5, h6, h7⟩ := h
  constructor <;> simpa only [hsc, harm, hien, hclk, hhost, hpg]

/-- A stopped block meets the invariant: nothing runs, nothing is armed. -/
theorem LifecycleInvariant.of_stopped (h : Stopped r) : LifecycleInvariant r := by
  obtain ⟨⟨hhost, hpg, hsc⟩, hien, harm, hclk⟩ := h
  constructor <;> simp [*]

/-- While the host is inside a shutdown the sweep is at rest. -/
theorem LifecycleInvariant.sweep_at_rest (h : LifecycleInvariant r) (hbusy : r.hpc ≠ .idle) :
    r.scpc = .idle ∧ r.swarm = false := by
  constructor
  · by_contra htick
    obtain ⟨-, -, hidle⟩ := h.tick_started htick
    exact hbusy hidle
  · refine Bool.eq_false_iff.2 fun harmed => ?_
    obtain ⟨-, -, hidle⟩ := h.armed_started harmed
    exact hbusy hidle

theorem exec_keeps_lifecycleInvariant (hinv : LifecycleInvariant s.regs) (h : exec i s = .next t) :
    LifecycleInvariant t.regs := by
  cases i with
  | reset =>
    cases h
    exact .of_stopped ⟨⟨rfl, rfl, rfl⟩, rfl, rfl, rfl⟩
  | init0 =>
    obtain ⟨⟨hquiet, -⟩, rfl⟩ := guarded_eq_next_iff.1 h
    exact .of_stopped ⟨hquiet, rfl, rfl, rfl⟩
  | init1 =>
    obtain ⟨⟨⟨hhost, hpg, hsc⟩, -⟩, -, hregs⟩ := exec_init1_next h
    constructor <;> simp [hregs, hhost, hpg, hsc]
  | sdDisarm =>
    obtain ⟨⟨hhost, -, hsc⟩, rfl⟩ := exec_sdDisarm_next h
    exact { hinv with
      tick_disarmed := fun _ => rfl
      tick_started := fun htick => absurd hsc htick
      armed_started := nofun
      clock_off_window := fun hien hclk => nomatch hhost.symm.trans (hinv.clock_off_window hien hclk)
      clkoff_done := nofun }
  | sdClkoff =>
    obtain ⟨⟨hhost, -⟩, rfl⟩ := exec_sdClkoff_next h
    obtain ⟨hsc, harm⟩ := hinv.sweep_at_rest (by simp [hhost])
    exact { hinv with
      tick_started := fun htick => absurd hsc htick
      armed_started := fun harmed => nomatch harm.symm.trans harmed
      clock_off_window := fun _ _ => rfl
      clkoff_done := fun _ => rfl
      masked_clock_off := fun _ => rfl }
  | sdMask => exact .of_stopped (exec_sdMask_stopped hinv h)
  | pgAck =>
    obtain ⟨⟨hidle, -, hien⟩, rfl⟩ := exec_pgAck_next h
    exact { hinv with invocation_unmasked := fun _ => hien }
  | pgRearm =>
    obtain ⟨hphase, rfl⟩ := exec_pgRearm_next h
    exact { hinv with invocation_unmasked := fun _ => hinv.invocation_unmasked (by simp [hphase]) }
  | pgChk =>
    obtain ⟨hphase, rfl⟩ := exec_pgChk_next h
    exact { hinv with invocation_unmasked := fun _ => hinv.invocation_unmasked (by simp [hphase]) }
  | pgOut =>
    obtain ⟨-, _, _, rfl, -⟩ := exec_pgOut_next h
    exact { hinv with invocation_unmasked := fun hbusy => absurd rfl hbusy }
  | scUpd =>
    obtain ⟨⟨-, -, harmed, -⟩, rfl⟩ := exec_scUpd_next h
    exact { hinv with
      tick_disarmed := fun _ => rfl
      tick_started := fun _ => hinv.armed_started harmed
      armed_started := nofun }
  | scBnd =>
    obtain ⟨⟨hbnd, -⟩, rfl⟩ := exec_scBnd_next h
    have htick : s.regs.scpc ≠ .idle := by simp [hbnd]
    exact { hinv with
      tick_disarmed := fun _ => hinv.tick_disarmed htick
      tick_started := fun _ => hinv.tick_started htick }
  | scArm =>
    obtain ⟨⟨harm, -⟩, rfl⟩ := exec_scArm_next h
    exact { hinv with
      tick_disarmed := fun htick => absurd rfl htick
      tick_started := fun htick => absurd rfl htick
      armed_started := fun _ => hinv.tick_started (by simp [harm]) }
  | _ =>
    exact hinv.congr (ScPhase.code_inj.1 (exec_frame (q := .SCPC) h (by simp [writers])))
      (toNat_bool_inj.1 (exec_frame (q := .SWARM) h (by simp [writers])))
      (toNat_bool_inj.1 (exec_frame (q := .MIEN) h (by simp [writers])))
      (toNat_bool_inj.1 (exec_frame (q := .CLKEN) h (by simp [writers])))
      (HostPhase.code_inj.1 (exec_frame (q := .HPC) h (by simp [writers])))
      (PgPhase.code_inj.1 (exec_frame (q := .PGPC) h (by simp [writers])))

/-- Settles O48: each operation that writes a control flag or a phase has the guard its clause needs. -/
theorem everyStepKeepsTheLifecycleInvariant : Obligations.EveryStepKeepsTheLifecycleInvariant := by
  intro s t hinv h
  obtain ⟨w, rest, i, -, -, hrun⟩ := step_eq_next_cases h
  exact exec_keeps_lifecycleInvariant (s := { s with trace := rest }) hinv hrun

/-! ## The widths -/

theorem gatedDuty_lt (h : r.dutyval < 2 ^ p.wordW) : gatedDuty r < 2 ^ p.wordW := by
  unfold gatedDuty
  split
  · exact h
  · exact Nat.two_pow_pos _

theorem nextDuty_lt (p : Config.Params) (r : Regs) : nextDuty p r < 2 ^ p.wordW := by
  unfold nextDuty
  split
  · exact addW_lt _ _ _
  · exact subW_lt _ _ _

/-- What an operation writes fits the register: a wrapped sum, a free value, a parameter or a small constant. -/
theorem exec_keeps_inWidth (hp : s.params.Ok) (hw : s.regs.InWidth s.params) (h : exec i s = .next t) :
    t.regs.InWidth s.params := by
  have hnum := (Regs.inWidth_iff _ _).1 hw
  rw [Regs.inWidth_iff]
  cases i with
  | reset | adv | msadv | rbOpen | rbWrite =>
    cases h
    have hword := two_pow_wordW_ge hp
    have hstart : 110 < 2 ^ s.params.wordW := by omega
    simp [hnum, hstart, State.drew, State.anyValue_lt, addW_lt]
  | rdduty => obtain ⟨-, rfl⟩ | ⟨-, rfl⟩ := exec_rdduty_next h <;> simp [hnum]
  | rbRead => obtain ⟨-, rfl⟩ | ⟨-, _, -, rfl⟩ | ⟨-, -, rfl⟩ := exec_rbRead_next h <;> simp [hnum]
  | pgOut =>
    obtain ⟨-, v, n, rfl, hon, hoff⟩ := exec_pgOut_next h
    have hv : v < 2 ^ s.params.wordW := by
      cases hclk : s.regs.clken with
      | false =>
        obtain ⟨rfl, -⟩ := hoff hclk
        exact s.anyValue_lt _ _
      | true =>
        obtain ⟨rfl, -⟩ := hon hclk
        exact gatedDuty_lt (hw .DUTYVAL)
    simp [hnum, hv]
  | _ =>
    obtain ⟨-, rfl⟩ := guarded_eq_next_iff.1 h
    have hword := two_pow_wordW_ge hp
    have hstart : 110 < 2 ^ s.params.wordW := by omega
    obtain ⟨-, -, -, -, -, -, hctrl, hperiod⟩ := hp
    simp [hnum, hstart, hctrl, hperiod, State.anyValue_lt, addW_lt, nextDuty_lt]

/-- Settles O50: every value an operation writes fits the register it is written to. -/
theorem everyStepKeepsRegistersInWidth : Obligations.EveryStepKeepsRegistersInWidth := by
  intro s t hp hw h
  obtain ⟨w, rest, i, -, -, hrun⟩ := step_eq_next_cases h
  rw [exec_params hrun]
  exact exec_keeps_inWidth (s := { s with trace := rest }) hp hw hrun

/-! ## Safety and the recorded output -/

/-- Settles O47: a violation is raised only on a value outside the domain, which the duty invariant excludes. -/
theorem everyStepStaysSafe : Obligations.EveryStepStaysSafe := by
  intro s t hinv hsafe h
  obtain ⟨w, rest, i, -, -, hrun⟩ := step_eq_next_cases h
  obtain hkept | ⟨-, hnone⟩ | ⟨-, hout, -⟩ := faultIsStickyAndRaisedOnlyAtReadback i _ t hrun
  · exact hkept.trans hsafe
  · exact hnone
  · exact absurd hinv.domain hout

theorem exec_keeps_outputRecorded (hrec : s.OutputRecorded) (h : exec i s = .next t) : t.OutputRecorded := by
  unfold State.OutputRecorded
  by_cases hi : i ∈ [Instr.pgOut, .reset, .init1, .init0]
  · rw [exec_pwmSeq_append h hi, List.getLast?_concat]
  · have hduty : t.regs.pwmduty = s.regs.pwmduty :=
      exec_frame (q := .PWMDUTY) h (by cases i <;> simp_all [writers])
    rw [exec_pwmSeq_eq h hi, hduty]
    exact hrec

/-- Settles O59: an operation that writes PWMDUTY records the value, any other leaves both. -/
theorem everyStepRecordsTheOutput : Obligations.EveryStepRecordsTheOutput := by
  intro s t hrec h
  obtain ⟨w, rest, i, -, -, hrun⟩ := step_eq_next_cases h
  exact exec_keeps_outputRecorded (s := { s with trace := rest }) hrec hrun

/-! ## Reset -/

/-- The parameters of `State.reset` meet the constraints of 00_scope.md R6, whatever the open values are. -/
theorem params_ok : Config.params.Ok := by
  have htoggle : Config.toggleTickRaw % (2 ^ 30 - 9) < 2 ^ 30 - 9 := Nat.mod_lt _ (by decide)
  refine ⟨by decide, by decide, by decide, by decide, ?_, ?_, Nat.mod_lt _ (by decide), Nat.mod_lt _ (by decide)⟩
  · change 8 < 9 + Config.toggleTickRaw % (2 ^ 30 - 9)
    omega
  · change 9 + Config.toggleTickRaw % (2 ^ 30 - 9) < 2 ^ 30
    omega

/-- Settles O46: the block starts at the left end, moving right. -/
theorem resetMeetsTheDutyInvariant : Obligations.ResetMeetsTheDutyInvariant :=
  ⟨params_ok, .of_start rfl rfl⟩

/-- Settles O49: the block starts stopped. -/
theorem resetMeetsTheLifecycleInvariant : Obligations.ResetMeetsTheLifecycleInvariant :=
  LifecycleInvariant.of_stopped ⟨⟨rfl, rfl, rfl⟩, rfl, rfl, rfl⟩

theorem atReset_inWidth (hp : p.Ok) (n m : Nat) : (Regs.atReset p n m).InWidth p := by
  have hword := two_pow_wordW_ge hp
  have hstart : 110 < 2 ^ p.wordW := by omega
  rw [Regs.inWidth_iff]
  simp [Regs.atReset, hstart, anyValue_lt, Nat.mod_lt]

/-- Settles O51: the free values and the launch values are cut to their registers' widths. -/
theorem resetRegistersAreInWidth : Obligations.ResetRegistersAreInWidth :=
  atReset_inWidth params_ok _ _

/-- Settles O60: the sequence of output values starts with the value PWMDUTY has at reset. -/
theorem resetRecordsTheOutput : Obligations.ResetRecordsTheOutput := rfl

end Sys2Proof.Machine
end

