-- ==== Sys2Proof/Proofs/Stepping.lean ====
section
/-! PROOFS. Taking the words of a trace one by one is taking the operations they decode to (30_encoding.md R89). -/
namespace Sys2Proof.Machine
variable {i : Instr} {s t : State} {w : OpWord} {ws rest : List OpWord} {is : List Instr}

/-! ## One word -/

theorem step_of_trace (htrace : s.trace = w :: rest) : step s = execWord w { s with trace := rest } := by
  simp only [step, htrace]

theorem execWord_of_illegal {why : Illegal} (h : decode w = .illegal why) (s : State) :
    execWord w s = .refused (.illegalWord w why) := by
  simp only [execWord, h]

theorem execWord_eq_next_iff : execWord w s = .next t ↔ ∃ i, decode w = .op i ∧ exec i s = .next t := by
  cases h : decode w with
  | op i => simp [execWord_of_op h]
  | illegal why => simp [execWord_of_illegal h]

/-- Settles O1: the step takes the first word, and the word is its operation. -/
theorem stepRunsTheDecodedOperation : Obligations.StepRunsTheDecodedOperation :=
  fun _ _ _ _ htrace hdecode => (step_of_trace htrace).trans (execWord_of_op hdecode _)

theorem tableWord_toNat (w : OpWord) : tableWord 32 w.toNat = w := by
  rw [tableWord, Nat.mod_eq_of_lt w.isLt, BitVec.ofNat_toNat, BitVec.setWidth_eq]

/-- Settles O2: the word placed in front is the operation's word, and the trace behind it is the state's own. -/
theorem fetchedWordIsRunNext : Obligations.FetchedWordIsRunNext := by
  intro i s hwf
  refine stepRunsTheDecodedOperation _ (encode i) s.trace i ?_ (decode_encode hwf)
  rw [State.withFetchWord_trace, tableWord_toNat]

/-- Settles O3: the two ways a step has no next state beside a guard that fails. -/
theorem illegalWordIsRefusedAndEmptyTraceStops : Obligations.IllegalWordIsRefusedAndEmptyTraceStops := by
  refine ⟨fun s w rest why htrace hdecode => ?_, fun s htrace => ?_⟩
  · exact (step_of_trace htrace).trans (execWord_of_illegal hdecode _)
  · simp only [step, htrace]

/-! ## The words behind the one taken play no part -/

/-- An operation does the same whatever words stand behind it. -/
theorem exec_setTrace (h : exec i s = .next t) (ws : List OpWord) :
    exec i { s with trace := ws } = .next { t with trace := ws } := by
  cases i with
  | reset | adv | msadv | rbOpen | rbWrite =>
    cases h
    rfl
  | rdduty =>
    obtain ⟨hin, rfl⟩ | ⟨hout, rfl⟩ := exec_rdduty_next h
    · exact exec_rdduty_of_mem hin
    · exact exec_rdduty_of_not_mem hout
  | rbRead =>
    obtain ⟨hread, rfl⟩ | ⟨hfirst, _, hlabel, rfl⟩ | ⟨hfirst, hout, rfl⟩ := exec_rbRead_next h
    · exact exec_rbRead_of_done hread
    · exact exec_rbRead_of_label hfirst hlabel
    · exact exec_rbRead_of_not_mem hfirst hout
  | pgOut =>
    obtain ⟨hg, rfl⟩ := guarded_eq_next_iff.1 h
    refine (guarded_of_pos hg).trans (congrArg Host.Outcome.next ?_)
    split <;> rfl
  | _ =>
    obtain ⟨hg, rfl⟩ := guarded_eq_next_iff.1 h
    exact guarded_of_pos hg

/-! ## The whole trace -/

/-- A run of one more step starts with a step, in any machine of the host's interface. -/
theorem coreRun_succ_eq_next_iff {M : Host.Core} {k : Nat} {s t : M.State} :
    M.run (k + 1) s = .next t ↔ ∃ u, M.step s = .next u ∧ M.run k u = .next t := by
  rw [Host.Core.run]
  cases h : M.step s <;> simp

theorem run_succ_eq_next_iff {k : Nat} :
    Sys2Proof.core.run (k + 1) s = .next t ↔ ∃ u, step s = .next u ∧ Sys2Proof.core.run k u = .next t :=
  coreRun_succ_eq_next_iff (M := Sys2Proof.core)

/-- Settles O4: by the trace, each step taking the first word and each operation blind to the words behind it. -/
theorem stepsTakeTheTraceInOrder : Obligations.StepsTakeTheTraceInOrder := by
  intro ws s t
  induction ws generalizing s with
  | nil =>
    constructor
    · intro h
      exact ⟨[], rfl, h⟩
    · rintro ⟨is, his, hrun⟩
      obtain rfl : is = [] := List.map_eq_nil_iff.1 his.symm
      exact hrun
  | cons w ws ih =>
    rw [List.length_cons, run_succ_eq_next_iff]
    constructor
    · rintro ⟨u, hstep, hrun⟩
      obtain ⟨i, hdecode, hexec⟩ := execWord_eq_next_iff.1 ((step_of_trace rfl).symm.trans hstep)
      have hbehind : u.trace = ws := exec_trace hexec
      obtain ⟨is, his, hall⟩ := (ih u).1 (hbehind ▸ hrun)
      refine ⟨i :: is, by simp [hdecode, his], ?_⟩
      rwa [execAll_cons_of_next (exec_setTrace hexec [])]
    · rintro ⟨is, his, hall⟩
      obtain ⟨i, is, rfl, hi, his⟩ := List.map_eq_cons_iff.1 his.symm
      obtain ⟨u, hexec, hall⟩ := execAll_cons_eq_next_iff.1 hall
      have hnone : u.trace = [] := exec_trace hexec
      refine ⟨{ u with trace := ws }, ?_, (ih _).2 ⟨is, his.symm, ?_⟩⟩
      · exact (step_of_trace rfl).trans ((execWord_of_op hi.symm _).trans (exec_setTrace hexec ws))
      · exact hnone ▸ hall

end Sys2Proof.Machine
end

