-- ==== Sys2Proof/Proofs/Arithmetic.lean ====
section
/-! PROOFS. The arithmetic primitives as numbers modulo 2^W, and the signed distance as the one representative of its
range (00_scope.md R9). -/
namespace Sys2Proof.Machine
variable {w a b c : Nat} {n : Int}

/-- Four divides the counter's turn, so the wrap does not show in the phase (10_state.md R22). -/
theorem addW_mod_four (a b : Nat) (hw : 2 ≤ w) : addW w a b % 4 = (a + b) % 4 := by
  have hturn : 4 ∣ 2 ^ w := pow_dvd_pow 2 hw
  rw [addW, Nat.mod_mod_of_dvd _ hturn]

/-- Settles O11: the wrap does not show in the phase. -/
theorem gatePhaseAdvancesAcrossTheWrap : Obligations.GatePhaseAdvancesAcrossTheWrap := by
  intro w p hw
  rw [addW_mod_four p 1 hw, Nat.mod_add_mod]

/-! ## Subtraction and the signed distance -/

/-- Subtraction is the integer difference modulo `2^W`. -/
theorem cast_subW (w a b : Nat) : (subW w a b : Int) = ((a : Int) - b) % 2 ^ w := by
  have hb : b % 2 ^ w < 2 ^ w := Nat.mod_lt _ (Nat.two_pow_pos w)
  rw [subW]
  push_cast [Nat.cast_sub hb.le]
  rw [← add_sub_assoc, add_sub_right_comm, Int.add_emod_right, Int.sub_emod, Int.emod_emod, ← Int.sub_emod]

/-- The signed distance is the difference up to whole turns. -/
theorem two_pow_dvd_sdiffW_sub (w a b : Nat) : (2 : Int) ^ w ∣ sdiffW w a b - ((a : Int) - b) := by
  have hsub : (2 : Int) ^ w ∣ (subW w a b : Int) - ((a : Int) - b) := by
    rw [cast_subW]
    exact (Int.mod_modEq _ _).symm.dvd
  unfold sdiffW
  split
  · exact hsub
  · rw [sub_right_comm]
    exact dvd_sub_self_right.2 hsub

theorem two_pow_pred (hw : 1 ≤ w) : 2 * 2 ^ (w - 1) = 2 ^ w := mul_pow_sub_one (by omega) 2

/-- The range of the signed distance is half a turn each way. -/
theorem sdiffW_bounds (hw : 1 ≤ w) (a b : Nat) :
    -(2 : Int) ^ (w - 1) ≤ sdiffW w a b ∧ sdiffW w a b < (2 : Int) ^ (w - 1) := by
  have hhalf := two_pow_pred hw
  have hlt := subW_lt w a b
  zify at hhalf hlt
  unfold sdiffW
  split
  · next hnear =>
    zify at hnear
    omega
  · next hfar =>
    zify at hfar
    omega

/-- Settles O10: each primitive is its integer operation up to whole turns, cut to its range. -/
theorem arithmeticPrimitives : Obligations.ArithmeticPrimitives :=
  fun w a b => ⟨rfl, cast_subW w a b,
    fun hw => ⟨(sdiffW_bounds hw a b).1, (sdiffW_bounds hw a b).2, two_pow_dvd_sdiffW_sub w a b⟩⟩

/-- A point is at distance 0 from itself. -/
theorem sdiffW_self (w a : Nat) : sdiffW w a a = 0 := by
  have hzero : subW w a a = 0 := by
    zify
    rw [cast_subW, sub_self, Int.zero_emod]
  rw [sdiffW, hzero, if_pos (Nat.two_pow_pos _), Nat.cast_zero]

/-- A number of the range that differs from the difference by whole turns is the signed distance. -/
theorem sdiffW_eq_of_dvd (hw : 1 ≤ w) (hlo : -(2 : Int) ^ (w - 1) ≤ n) (hhi : n < (2 : Int) ^ (w - 1))
    (hdvd : (2 : Int) ^ w ∣ n - ((a : Int) - b)) : sdiffW w a b = n := by
  obtain ⟨hlo', hhi'⟩ := sdiffW_bounds hw a b
  have hhalf := two_pow_pred hw
  zify at hhalf
  have hturns : (2 : Int) ^ w ∣ sdiffW w a b - n := by
    have := dvd_sub (two_pow_dvd_sdiffW_sub w a b) hdvd
    rwa [sub_sub_sub_cancel_right] at this
  have hzero : sdiffW w a b - n = 0 := Int.eq_zero_of_abs_lt_dvd hturns (abs_lt.2 ⟨by omega, by omega⟩)
  omega

/-- A wrapped sum is the sum up to whole turns. -/
theorem two_pow_dvd_sub_addW (w a c : Nat) : (2 : Int) ^ w ∣ ((a : Int) + c) - (addW w a c : Nat) := by
  rw [addW]
  push_cast
  exact (Int.mod_modEq _ _).dvd

/-- Moving the later point on by `c` lengthens the distance by `c`, as long as it does not wrap. -/
theorem sdiffW_addW_left (hw : 1 ≤ w) (hhi : sdiffW w a b + c < (2 : Int) ^ (w - 1)) :
    sdiffW w (addW w a c) b = sdiffW w a b + c := by
  obtain ⟨hlo, -⟩ := sdiffW_bounds hw a b
  refine sdiffW_eq_of_dvd hw (by omega) hhi ?_
  convert Int.dvd_add (two_pow_dvd_sdiffW_sub w a b) (two_pow_dvd_sub_addW w a c) using 1
  ring

/-- Moving both points on, the later by `c` and the earlier by `e` up to whole turns, adds `c - e` to the distance, as
long as it does not wrap. -/
theorem sdiffW_addW_moved {b' e : Nat} (hw : 1 ≤ w) (hmoved : (2 : Int) ^ w ∣ ((b : Int) + e) - b')
    (hlo : -(2 : Int) ^ (w - 1) ≤ sdiffW w a b + c - e) (hhi : sdiffW w a b + c - e < (2 : Int) ^ (w - 1)) :
    sdiffW w (addW w a c) b' = sdiffW w a b + c - e := by
  refine sdiffW_eq_of_dvd hw hlo hhi ?_
  convert Int.dvd_sub (Int.dvd_add (two_pow_dvd_sdiffW_sub w a b) (two_pow_dvd_sub_addW w a c)) hmoved using 1
  ring

end Sys2Proof.Machine
end

