-- ==== Sys2Proof/Proofs/Effects.lean ====
section
/-! PROOFS. The whole effect of single operations, the refusals beside it, and the whole shutdown (40_pulse_generator.md
to 44_lifecycle.md). -/
namespace Sys2Proof.Machine
variable {s t : State} {i : Instr} {v : Nat}

/-- A run is put together from its first operation and the run of the others. -/
theorem execAll_cons_next {is : List Instr} {u : State} (hfirst : exec i s = .next t) (hrest : execAll is t = .next u) :
    execAll (i :: is) s = .next u :=
  (execAll_cons_of_next hfirst).trans hrest

/-! ## The Pulse Generator -/

theorem exec_pgRearm_of_enabled (h : s.regs.pgpc = .rearm) :
    exec .pgRearm s = .next { s with
      regs.matchReg := addW s.params.tickW s.regs.matchReg s.params.toggleTick
      regs.percnt := addW s.params.cntW s.regs.percnt 1
      regs.pgpc := .chk } :=
  guarded_of_pos h

/-- Settles O13: PG.REARM is a guarded step. -/
theorem pgRearmAddsOnePeriodAndOneCount : Obligations.PgRearmAddsOnePeriodAndOneCount :=
  ⟨by decide, fun _ => exec_pgRearm_of_enabled, fun _ h => exec_refused_of_not_enabled (i := .pgRearm) h⟩

theorem exec_pgChk_of_due (h : s.regs.pgpc = .chk) (hdue : DueWithinSlack s.params s.regs) :
    exec .pgChk s = .next { s with regs.pgpc := .rearm } := by
  refine (guarded_of_pos h).trans ?_
  rw [if_pos hdue]

theorem exec_pgChk_of_not_due (h : s.regs.pgpc = .chk) (hdue : ¬DueWithinSlack s.params s.regs) :
    exec .pgChk s = .next { s with regs.pgpc := .out } := by
  refine (guarded_of_pos h).trans ?_
  rw [if_neg hdue]

/-- Settles O14: the two clauses are the two outcomes of the one test. -/
theorem pgChkLoopsWithinTheSlackWindow : Obligations.PgChkLoopsWithinTheSlackWindow :=
  ⟨by decide, fun _ => exec_pgChk_of_due, fun _ h hgt => exec_pgChk_of_not_due h (not_le.2 hgt),
    fun _ h => exec_refused_of_not_enabled (i := .pgChk) h⟩

theorem exec_pgOut_of_clock_on (h : s.regs.pgpc = .out) (hclk : s.regs.clken = true) :
    exec .pgOut s = .next { s with
      regs.pwmduty := gatedDuty s.regs, regs.pgpc := .idle, pwmSeq := s.pwmSeq ++ [gatedDuty s.regs] } := by
  refine (guarded_of_pos h).trans ?_
  rw [if_pos hclk]
  rfl

theorem exec_pgOut_of_clock_off (h : s.regs.pgpc = .out) (hclk : s.regs.clken = false) :
    exec .pgOut s = .next { s with
      regs.pwmduty := s.anyValue 0 s.params.wordW, regs.pgpc := .idle
      pwmSeq := s.pwmSeq ++ [s.anyValue 0 s.params.wordW], nextFree := s.nextFree + 1 } := by
  refine (guarded_of_pos h).trans ?_
  rw [if_neg (by simp [hclk])]
  rfl

/-- Settles O15: the clock decides between a fresh value and the gated duty, the count between the duty and 0. -/
theorem pgOutWritesTheGatedDuty : Obligations.PgOutWritesTheGatedDuty := by
  refine ⟨by decide, fun s h hclk hgate => ?_, fun s h hclk hclosed => ?_,
    fun s h hclk => ⟨s.anyValue_lt _ _, exec_pgOut_of_clock_off h hclk⟩,
    fun _ h => exec_refused_of_not_enabled (i := .pgOut) h⟩
  · rw [exec_pgOut_of_clock_on h hclk, gatedDuty, if_pos hgate]
  · rw [exec_pgOut_of_clock_on h hclk, gatedDuty, if_neg hclosed]

/-! ## SC.UPD -/

/-- Settles O16: SC.UPD is a guarded step whose value is the sum or the difference by the direction. -/
theorem scUpdMovesTheDutyValue : Obligations.ScUpdMovesTheDutyValue := by
  refine ⟨by decide, fun s hsc hpg harm hdue hdir => ?_, fun s hsc hpg harm hdue hdir => ?_,
    fun _ h => exec_refused_of_not_enabled (i := .scUpd) h⟩
  · rw [exec_scUpd_of_enabled hsc hpg ⟨harm, hdue⟩, nextDuty, hdir]
  · rw [exec_scUpd_of_enabled hsc hpg ⟨harm, hdue⟩, nextDuty, hdir]

/-! ## Read-back -/

/-- Settles O19: row by row, and no row elsewhere. -/
theorem angleTableIsExact : Obligations.AngleTableIsExact := by
  refine ⟨fun v label degrees hrow => ?_, fun v hv => ⟨?_, ?_⟩⟩
  · simp only [List.mem_cons, List.not_mem_nil, or_false, Prod.mk.injEq] at hrow
    obtain ⟨rfl, rfl, rfl⟩ | ⟨rfl, rfl, rfl⟩ | ⟨rfl, rfl, rfl⟩ | ⟨rfl, rfl, rfl⟩ | ⟨rfl, rfl, rfl⟩ | ⟨rfl, rfl, rfl⟩ |
      ⟨rfl, rfl, rfl⟩ := hrow <;> decide
  · rw [← Option.not_isSome_iff_eq_none, angleText_isSome_iff]
    exact hv
  · unfold angleDegrees
    split <;> simp_all

/-- The exception as one update: FAULT holds the violation afterwards, whatever it held (60_exceptions.md R201). -/
theorem raise_eq (s : State) : s.raiseInvariantViolation = { s with regs.fault := .invariantViolation } := by
  rw [← State.raise_regs]
  rfl

/-- Settles O20: the two ways of RDDUTY. -/
theorem rddutyReturnsOrRecords : Obligations.RddutyReturnsOrRecords :=
  ⟨by decide, fun _ hin => exec_rdduty_of_mem hin,
    fun s hout => (exec_rdduty_of_not_mem hout).trans (congrArg Host.Outcome.next (raise_eq s))⟩

/-- Settles O22: the three ways of RB.READ, the label by the angle table. -/
theorem rbReadReturnsTheLabelOnce : Obligations.RbReadReturnsTheLabelOnce := by
  refine ⟨by decide, fun _ => exec_rbRead_of_done, fun s v label hfirst hduty hrow => ?_,
    fun s hfirst hout => (exec_rbRead_of_not_mem hfirst hout).trans (congrArg Host.Outcome.next (raise_eq s))⟩
  refine exec_rbRead_of_label hfirst ?_
  rw [hduty]
  simp only [List.mem_cons, List.not_mem_nil, or_false, Prod.mk.injEq] at hrow
  obtain ⟨rfl, rfl⟩ | ⟨rfl, rfl⟩ | ⟨rfl, rfl⟩ | ⟨rfl, rfl⟩ | ⟨rfl, rfl⟩ | ⟨rfl, rfl⟩ | ⟨rfl, rfl⟩ := hrow <;> rfl

/-! ## RESET, launch, INIT -/

/-- Settles O28: RESET has no guard, and its free values are cut to their widths. -/
theorem resetGivesTheStartState : Obligations.ResetGivesTheStartState :=
  ⟨by decide, fun s => ⟨s.anyValue_lt _ _, s.anyValue_lt _ _, fun _ _ => s.anyValue_lt _ _, rfl⟩⟩

/-- Settles O29: parameters that meet the constraints launch in their reset state, at the launch values given. -/
theorem launchStateIsTheResetState : Obligations.LaunchStateIsTheResetState := by
  refine ⟨fun p t m ht hm hp => ⟨State.launch p t m, if_pos hp, ?_⟩, fun p t m hp => if_neg hp,
    Config.launchTick, Config.launchMs, if_pos params_ok⟩
  simp [Regs.atReset, Nat.mod_eq_of_lt ht, Nat.mod_eq_of_lt hm]

/-- Settles O31: INIT 1 is a guarded step from a stopped block. -/
theorem initOneStartsTheBlock : Obligations.InitOneStartsTheBlock :=
  ⟨by decide, fun _ hhost hpg hsc hien harm hclk => guarded_of_pos (stopped_iff.2 ⟨hhost, hpg, hsc, hien, harm, hclk⟩),
    fun s => s.anyValue_lt _ _, fun _ h => exec_refused_of_not_enabled (i := .init1) h⟩

/-- INIT 0 leaves the three flags the guard found at 0. -/
theorem exec_init0_of_stopped (h : Stopped s.regs) : exec .init0 s = .next { s with
    regs.dutyval := 110, regs.dir := .increasing, regs.percnt := 0, regs.mpend := false
    regs.pwmctrl := s.anyValue 0 s.params.wordW, regs.pwmperval := s.anyValue 1 s.params.wordW
    regs.matchReg := s.anyValue 2 s.params.tickW, regs.swdl := s.anyValue 3 s.params.msW
    regs.pwmduty := s.anyValue 4 s.params.wordW, pwmSeq := s.pwmSeq ++ [s.anyValue 4 s.params.wordW]
    regs.initstat := .registrationFailure
    returned := s.returned ++ [.initStatus .registrationFailure], nextFree := s.nextFree + 5 } := by
  have ⟨_, hien, harm, hclk⟩ := h
  refine (guarded_of_pos h).trans ?_
  simp [State.emit, State.drew, State.writePwmDuty, hien, harm, hclk]

/-- Settles O32: INIT 0 is a guarded step from a stopped block, and its free values are cut to their widths. -/
theorem initZeroLeavesTheBlockStopped : Obligations.InitZeroLeavesTheBlockStopped :=
  ⟨by decide, fun s hhost hpg hsc hien harm hclk => ⟨s.anyValue_lt _ _, s.anyValue_lt _ _, fun _ _ => s.anyValue_lt _ _,
      exec_init0_of_stopped (stopped_iff.2 ⟨hhost, hpg, hsc, hien, harm, hclk⟩)⟩,
    fun _ h => exec_refused_of_not_enabled (i := .init0) h⟩

/-! ## Shutdown -/

theorem exec_sdDisarm_of_quiescent (h : Quiescent s.regs) :
    exec .sdDisarm s = .next { s with regs.swarm := false, regs.hpc := .sd1 } :=
  guarded_of_pos h

/-- Settles O33: SD.DISARM is a guarded step. -/
theorem sdDisarmDisarmsTheSweepTimer : Obligations.SdDisarmDisarmsTheSweepTimer :=
  ⟨by decide, fun _ hhost hpg hsc => exec_sdDisarm_of_quiescent ⟨hhost, hpg, hsc⟩,
    fun _ h => exec_refused_of_not_enabled (i := .sdDisarm) h⟩

/-- The three shutdown steps in a row, each leaving the guard of the next (44_lifecycle.md R187). -/
theorem execAll_shutdown (h : Quiescent s.regs) : execAll shutdownOps s = .next { s with
    regs.swarm := false, regs.clken := false, regs.mien := false, regs.hpc := .idle } := by
  have ⟨_, hpg, _⟩ := h
  refine execAll_cons_next (exec_sdDisarm_of_quiescent h) ?_
  refine execAll_cons_next (exec_sdClkoff_of_enabled rfl hpg) ?_
  exact execAll_cons_next (exec_sdMask_of_enabled rfl hpg) rfl

/-- INIT 1 starts a stopped block at the left end, moving right (44_lifecycle.md R182). -/
theorem exec_init1_starts (h : Stopped s.regs) : ∃ t, exec .init1 s = .next t ∧ t.regs.dutyval = 110 ∧
    t.regs.dir = .increasing ∧ t.regs.percnt = 0 ∧ t.regs.mien = true ∧ t.regs.swarm = true ∧ t.regs.clken = true :=
  ⟨_, guarded_of_pos h, rfl, rfl, rfl, rfl, rfl, rfl⟩

/-- Settles O36: the shutdown leaves the block stopped, from where INIT 1 starts it. -/
theorem shutdownThenRestart : Obligations.ShutdownThenRestart := by
  intro s hhost hpg hsc
  have hshut := execAll_shutdown (s := s) ⟨hhost, hpg, hsc⟩
  obtain ⟨t, hinit, hstart⟩ := exec_init1_starts (s := { s with
    regs.swarm := false, regs.clken := false, regs.mien := false, regs.hpc := .idle }) ⟨⟨rfl, hpg, hsc⟩, rfl, rfl, rfl⟩
  exact ⟨hshut, t, (execAll_append_of_next hshut).trans ((execAll_singleton _ _).trans hinit), hstart⟩

end Sys2Proof.Machine
end

