-- ==== Sys2Proof/Proofs/Advance.lean ====
section
/-! PROOFS. ADV: the distance to MATCH as the number of increments that reach it, and from that the closed form, the
split and the repeated tick (43_timer_facilities.md R161; log 11). -/
namespace Sys2Proof
variable {n : Nat}

theorem decodeFields_adv (hn : 1 ≤ n) : decodeFields 0x30 n = .op (.adv n) :=
  if_neg (Nat.ne_of_gt hn)

end Sys2Proof

namespace Sys2Proof.Machine
variable {w a n : Nat} {p : Config.Params} {r : Regs} {s : State}

/-! ## The distance to MATCH -/

/-- The difference added back gives the other point. -/
theorem addW_subW (w a b : Nat) : addW w b (subW w a b) = a % 2 ^ w := by
  have hb : b % 2 ^ w < 2 ^ w := Nat.mod_lt _ (Nat.two_pow_pos w)
  have hturns := Nat.div_add_mod b (2 ^ w)
  have hsum : b + (a + (2 ^ w - b % 2 ^ w)) = a + 2 ^ w * (b / 2 ^ w + 1) := by
    rw [Nat.mul_add]
    omega
  rw [addW, subW, Nat.add_mod_mod, hsum, Nat.add_mul_mod_self_left]

theorem ticksToMatch_bounds (p : Config.Params) (r : Regs) : 1 ≤ ticksToMatch p r ∧ ticksToMatch p r ≤ 2 ^ p.tickW := by
  have hpos := Nat.two_pow_pos p.tickW
  have hlt := subW_lt p.tickW r.matchReg r.tickcnt
  unfold ticksToMatch
  split <;> omega

/-- So many increments do reach MATCH. -/
theorem addW_ticksToMatch (p : Config.Params) (r : Regs) :
    addW p.tickW r.tickcnt (ticksToMatch p r) = r.matchReg % 2 ^ p.tickW := by
  have hreach := addW_subW p.tickW r.matchReg r.tickcnt
  unfold ticksToMatch
  split
  · next hzero =>
    rw [hzero] at hreach
    rw [← hreach, addW, addW, Nat.add_mod_right, Nat.add_zero]
  · exact hreach

/-- It is the only number of increments up to a whole turn that reaches MATCH. -/
theorem ticksToMatch_eq_of_reach (hlo : 1 ≤ n) (hhi : n ≤ 2 ^ p.tickW)
    (hreach : addW p.tickW r.tickcnt n = r.matchReg % 2 ^ p.tickW) : ticksToMatch p r = n := by
  obtain ⟨hlo', hhi'⟩ := ticksToMatch_bounds p r
  have hsame : r.tickcnt + ticksToMatch p r ≡ r.tickcnt + n [MOD 2 ^ p.tickW] :=
    (addW_ticksToMatch p r).trans hreach.symm
  exact (Nat.ModEq.add_left_cancel' _ hsame).eq_of_abs_lt (abs_lt.2 ⟨by omega, by omega⟩)

/-- Short of MATCH an advance shortens the distance by its length. -/
theorem ticksToMatch_after_adv (h : a < ticksToMatch p r) (m : Bool) :
    ticksToMatch p { r with tickcnt := addW p.tickW r.tickcnt a, mpend := m } = ticksToMatch p r - a := by
  obtain ⟨-, hhi⟩ := ticksToMatch_bounds p r
  refine ticksToMatch_eq_of_reach (by omega) (by omega) ?_
  rw [addW_addW, Nat.add_sub_cancel' h.le]
  exact addW_ticksToMatch p r

/-! ## ADV -/

theorem exec_adv (n : Nat) (s : State) : exec (.adv n) s = .next { s with
    regs.tickcnt := addW s.params.tickW s.regs.tickcnt n
    regs.mpend := s.regs.mpend || (s.regs.mien && decide (ticksToMatch s.params s.regs ≤ n)) } := by
  simp only [exec, execAdv]
  cases s.regs.mpend <;> simp

/-- For an advance of less than a whole turn the distance at 0 counts as unreachable (R161, the closed form). -/
theorem ticksToMatch_le_iff (hn : n < 2 ^ p.tickW) :
    ticksToMatch p r ≤ n ↔ 1 ≤ subW p.tickW r.matchReg r.tickcnt ∧ subW p.tickW r.matchReg r.tickcnt ≤ n := by
  unfold ticksToMatch
  split <;> omega

/-- Settles O24: the whole turn is out of reach, and the word is put together from its fields. -/
theorem advAdvancesAndRecordsTheMatch : Obligations.AdvAdvancesAndRecordsTheMatch := by
  refine ⟨fun n hpos hlt => (decode_ofNat (op := 0x30) (by decide) hlt).trans (decodeFields_adv hpos),
    fun n s hn => ?_⟩
  rw [exec_adv]
  simp only [ticksToMatch_le_iff hn]
  rfl

/-- A match is reached in the whole advance exactly if it is reached in one part or the other. -/
theorem reached_split (p : Config.Params) (r : Regs) (a b : Nat) (m : Bool) :
    decide (ticksToMatch p r ≤ a + b) = (decide (ticksToMatch p r ≤ a) ||
      decide (ticksToMatch p { r with tickcnt := addW p.tickW r.tickcnt a, mpend := m } ≤ b)) := by
  rw [← Bool.decide_or]
  refine decide_eq_decide.2 ?_
  by_cases h : ticksToMatch p r ≤ a
  · exact iff_of_true (by omega) (.inl h)
  · rw [ticksToMatch_after_adv (by omega)]
    omega

/-- Settles O26: the counter's sums compose, and a match is reached in one part or the other. -/
theorem advSplits : Obligations.AdvSplits := by
  intro a b s
  rw [execAll_cons_of_next (exec_adv a s), execAll_singleton, exec_adv, exec_adv,
    reached_split _ _ a b (s.regs.mpend || (s.regs.mien && decide (ticksToMatch s.params s.regs ≤ a)))]
  simp only [addW_addW, Bool.and_or_distrib_left, Bool.or_assoc]

/-! ## The repeated tick -/

theorem exec_adv_zero (ht : s.regs.tickcnt < 2 ^ s.params.tickW) : exec (.adv 0) s = .next s := by
  obtain ⟨hpos, -⟩ := ticksToMatch_bounds s.params s.regs
  simp [exec_adv, addW_zero _ _ ht, Nat.not_le.2 hpos]

/-- One tick: the counter advances by 1 and is then compared with MATCH (R161, the pseudocode). -/
theorem exec_adv_one (hm : s.regs.matchReg < 2 ^ s.params.tickW) : exec (.adv 1) s = .next { s with
    regs.tickcnt := (s.regs.tickcnt + 1) % 2 ^ s.params.tickW
    regs.mpend := s.regs.mpend ||
      (s.regs.mien && decide ((s.regs.tickcnt + 1) % 2 ^ s.params.tickW = s.regs.matchReg)) } := by
  obtain ⟨hpos, -⟩ := ticksToMatch_bounds s.params s.regs
  have hone : ticksToMatch s.params s.regs ≤ 1 ↔
      (s.regs.tickcnt + 1) % 2 ^ s.params.tickW = s.regs.matchReg := by
    have hreach := addW_ticksToMatch s.params s.regs
    rw [Nat.mod_eq_of_lt hm] at hreach
    constructor
    · intro hle
      rwa [show ticksToMatch s.params s.regs = 1 by omega] at hreach
    · intro hnext
      exact (ticksToMatch_eq_of_reach le_rfl (Nat.one_le_two_pow) (hnext.trans (Nat.mod_eq_of_lt hm).symm)).le
  rw [exec_adv]
  simp only [hone]
  rfl

/-- Settles O25: by the number of ticks, splitting off the first. -/
theorem advIsRepeatedTicks : Obligations.AdvIsRepeatedTicks := by
  intro n s hpos hw
  obtain ⟨-, -, hm, -, -, -, -, ht, -⟩ := (Regs.inWidth_iff _ _).1 hw
  clear hpos hw
  induction n generalizing s with
  | zero => exact exec_adv_zero ht
  | succ n ih =>
    have hsplit : exec (.adv (n + 1)) s = execAll [.adv 1, .adv n] s := by rw [advSplits, Nat.add_comm]
    rw [hsplit, execAll_cons_of_next (exec_adv_one hm), execAll_singleton]
    refine ih _ ?_ ?_
    · exact hm
    · exact Nat.mod_lt _ (Nat.two_pow_pos _)

end Sys2Proof.Machine
end

