-- ==== Sys2Proof/Proofs/SweepTicks.lean ====
section
/-! PROOFS. Whole sweep ticks: one from each of the twelve pairs, and the twelve in a row (41_sweep_controller.md R124,
R126). -/
namespace Sys2Proof.Machine
variable {s t : State} {p : Config.Params} {r : Regs} {i : Instr} {is : List Instr}

/-! ## One uninterrupted sweep tick -/

/-- The row of R124's table for a value and a direction: a step in the direction, and a flip at the end it reaches. -/
def pairAfterTick : Nat × Direction → Nat × Direction
  | (v, .increasing) => (v + 60, if v + 60 = 470 then .decreasing else .increasing)
  | (v, .decreasing) => (v - 60, if v - 60 = 110 then .increasing else .decreasing)

/-- From a pair that meets the duty invariant, the update and the check follow the row. -/
theorem nextDuty_boundaryDir_eq (hp : p.Ok) (hinv : DutyInvariant r) (hsc : r.scpc = .idle) :
    (nextDuty p r, boundaryDir { r with dutyval := nextDuty p r }) = pairAfterTick (r.dutyval, r.dir) := by
  obtain ⟨-, hmax, hstep⟩ := dutyDomain_bounds hinv.domain
  have hout : r.scpc ≠ .bnd := by simp [hsc]
  cases hdir : r.dir with
  | increasing =>
    simp only [nextDuty_of_increasing hp hdir (hstep (hinv.increasing hout hdir)), boundaryDir, pairAfterTick]
  | decreasing =>
    simp only [nextDuty_of_decreasing hp hdir (hinv.decreasing hout hdir) hmax, boundaryDir, pairAfterTick]

/-- What SC.UPD makes of a state. -/
def State.updated (s : State) : State :=
  { s with regs.swarm := false, regs.dutyval := nextDuty s.params s.regs, regs.scpc := .bnd }

/-- What the check and the re-arm make of a state. -/
def State.tickEnded (s : State) : State :=
  { s with
    regs.dir := boundaryDir s.regs
    regs.swdl := addW s.params.msW s.regs.msnow 1000, regs.swarm := true, regs.scpc := .idle }

theorem execAll_scBnd_scArm (hbnd : s.regs.scpc = .bnd) (hpg : s.regs.pgpc = .idle) :
    execAll [.scBnd, .scArm] s = .next s.tickEnded :=
  execAll_cons_next (exec_scBnd_of_enabled hbnd hpg) (execAll_cons_next (exec_scArm_of_enabled rfl hpg) rfl)

/-- Update, check and re-arm in a row (41_sweep_controller.md R124). -/
theorem execAll_sweep (hp : s.params.Ok) (hinv : DutyInvariant s.regs) (hsc : s.regs.scpc = .idle)
    (hpg : s.regs.pgpc = .idle) (hexpired : SweepExpired s.params s.regs) :
    execAll sweepOps s = .next { s with
      regs.dutyval := (pairAfterTick (s.regs.dutyval, s.regs.dir)).1
      regs.dir := (pairAfterTick (s.regs.dutyval, s.regs.dir)).2
      regs.swdl := addW s.params.msW s.regs.msnow 1000, regs.swarm := true, regs.scpc := .idle } := by
  rw [← nextDuty_boundaryDir_eq hp hinv hsc]
  have hupd : exec .scUpd s = .next s.updated := exec_scUpd_of_enabled hsc hpg hexpired
  exact execAll_cons_next hupd (execAll_scBnd_scArm rfl hpg)

/-- Settles O52: each of the twelve pairs meets the duty invariant, and its row is the computed one. -/
theorem sweepTickFollowsTheTable : Obligations.SweepTickFollowsTheTable := by
  intro s D D' d d' hrow hp hduty hdir hsc hpg harm hdue
  obtain ⟨hnext, hdomain, hinc, hdec⟩ := (by decide : ∀ row ∈ _, row.2 = pairAfterTick row.1 ∧
    row.1.1 ∈ Config.dutyDomain ∧ (row.1.2 = .increasing → row.1.1 < 470) ∧
    (row.1.2 = .decreasing → 110 < row.1.1)) _ hrow
  subst hduty hdir
  have hinv : DutyInvariant s.regs := ⟨hdomain, fun _ => hinc, fun _ => hdec⟩
  refine (execAll_sweep hp hinv hsc hpg ⟨harm, hdue⟩).trans ?_
  rw [← hnext]

/-! ## Sweep ticks in a row -/

theorem execAll_keeps_dutyInvariant (hp : s.params.Ok) (hinv : DutyInvariant s.regs) (h : execAll is s = .next t) :
    DutyInvariant t.regs := by
  induction is generalizing s with
  | nil =>
    cases h
    exact hinv
  | cons i is ih =>
    obtain ⟨u, hfirst, hrest⟩ := execAll_cons_eq_next_iff.1 h
    exact ih ((exec_params hfirst).symm ▸ hp) (exec_keeps_dutyInvariant hp hinv hfirst) hrest

/-- One period of the sweep: the deadline is reached, the tick is served and sets the next one 1000 ms later. -/
def sweepPeriod : List Instr := .msadv 1000 :: sweepOps

/-- A block between two sweep ticks, right after the re-arm. -/
structure JustRearmed (s : State) : Prop where
  ok : s.params.Ok
  duty : DutyInvariant s.regs
  scpc_idle : s.regs.scpc = .idle
  pgpc_idle : s.regs.pgpc = .idle
  armed : s.regs.swarm = true
  deadline : s.regs.swdl = addW s.params.msW s.regs.msnow 1000

/-- The state `k` periods later. -/
def State.afterPeriods (s : State) (k : Nat) : State :=
  { s with
    regs.dutyval := (pairAfterTick^[k] (s.regs.dutyval, s.regs.dir)).1
    regs.dir := (pairAfterTick^[k] (s.regs.dutyval, s.regs.dir)).2
    regs.msnow := addW s.params.msW s.regs.msnow (1000 * k)
    regs.swdl := addW s.params.msW s.regs.msnow (1000 * (k + 1)) }

theorem JustRearmed.execAll_sweepPeriod (h : JustRearmed s) : execAll sweepPeriod s = .next (s.afterPeriods 1) := by
  obtain ⟨hp, hinv, hsc, hpg, harm, hdl⟩ := h
  have hsweep := execAll_sweep (s := { s with regs.msnow := addW s.params.msW s.regs.msnow 1000 }) hp
    (hinv.congr rfl rfl rfl) hsc hpg ⟨harm, by simp [hdl, sdiffW_self]⟩
  refine execAll_cons_next (exec_msadv 1000 s) (hsweep.trans ?_)
  simp [State.afterPeriods, addW_addW, hsc, harm]

theorem JustRearmed.afterPeriods_one (h : JustRearmed s) : JustRearmed (s.afterPeriods 1) where
  ok := h.ok
  duty := execAll_keeps_dutyInvariant h.ok h.duty h.execAll_sweepPeriod
  scpc_idle := h.scpc_idle
  pgpc_idle := h.pgpc_idle
  armed := h.armed
  deadline := (addW_addW _ _ _ _).symm

theorem State.afterPeriods_succ (s : State) (k : Nat) : (s.afterPeriods 1).afterPeriods k = s.afterPeriods (k + 1) := by
  have hnow : 1000 * 1 + 1000 * k = 1000 * (k + 1) := by ring
  have hdeadline : 1000 * 1 + 1000 * (k + 1) = 1000 * (k + 1 + 1) := by ring
  simp only [State.afterPeriods, addW_addW, hnow, hdeadline]
  rfl

/-- `k + 1` periods in a row. -/
theorem JustRearmed.execAll_sweepPeriods (h : JustRearmed s) (k : Nat) :
    execAll (List.replicate (k + 1) sweepPeriod).flatten s = .next (s.afterPeriods (k + 1)) := by
  induction k generalizing s with
  | zero => simpa using h.execAll_sweepPeriod
  | succ k ih =>
    rw [List.replicate_succ, List.flatten_cons, execAll_append_of_next h.execAll_sweepPeriod, ih h.afterPeriods_one,
      State.afterPeriods_succ]

/-- Settles O53: the pairs after six and twelve ticks are computed from R124's rows. -/
theorem sweepReturnsAfterTwelveTicks : Obligations.SweepReturnsAfterTwelveTicks := by
  intro s hp hduty hdir hsc hpg harm hdl
  have h : JustRearmed s := ⟨hp, .of_start hduty hdir, hsc, hpg, harm, hdl⟩
  refine ⟨⟨_, h.execAll_sweepPeriods 5, ?_, ?_⟩, (h.execAll_sweepPeriods 11).trans ?_⟩
  · simp only [State.afterPeriods, hduty, hdir]
    decide
  · simp only [State.afterPeriods, hduty, hdir]
    decide
  · have hback : pairAfterTick^[12] (s.regs.dutyval, s.regs.dir) = (s.regs.dutyval, s.regs.dir) := by
      rw [hduty, hdir]
      decide
    simp [State.afterPeriods, hback]

end Sys2Proof.Machine
end

