-- ==== Sys2Proof/Proofs/Invocations.lean ====
section
/-! PROOFS. Whole invocations: with TICKCNT standing still, on schedule, and beside a sweep tick (40_pulse_generator.md
R105, R106, 20_memory.md R68). -/
namespace Sys2Proof.Machine
variable {s t : State} {p : Config.Params} {k : Nat}

/-! ## Widths and the gate -/

theorem one_le_tickW (hp : p.Ok) : 1 ≤ p.tickW := by
  obtain ⟨-, -, htick, -⟩ := hp
  omega

theorem two_le_cntW (hp : p.Ok) : 2 ≤ p.cntW := by
  obtain ⟨-, hcnt, -⟩ := hp
  exact hcnt

/-- The gate after `k` counts is the gate of the sum: the counter's turn is a multiple of four. -/
theorem gatedDuty_of_count {r : Regs} {c : Nat} (hp : p.Ok) (hcount : r.percnt = addW p.cntW c k) :
    gatedDuty r = if (c + k) % 4 = 3 then r.dutyval else 0 := by
  have hphase : r.percnt % 4 = (c + k) % 4 := by rw [hcount, addW_mod_four _ _ (two_le_cntW hp)]
  change (if r.percnt % 4 = 3 then r.dutyval else 0) = _
  rw [hphase]

/-! ## The catch-up loop with TICKCNT standing still -/

/-- What `k` re-arms and the phase `ph` after them make of a state. -/
def State.rearmed (s : State) (k : Nat) (ph : PgPhase) : State :=
  { s with
    regs.matchReg := addW s.params.tickW s.regs.matchReg (k * s.params.toggleTick)
    regs.percnt := addW s.params.cntW s.regs.percnt k
    regs.pgpc := ph }

theorem State.rearmed_one_rearmed (s : State) (k : Nat) (ph ph' : PgPhase) :
    (s.rearmed 1 ph).rearmed k ph' = s.rearmed (k + 1) ph' := by
  have hsum : 1 * s.params.toggleTick + k * s.params.toggleTick = (k + 1) * s.params.toggleTick := by ring
  simp only [State.rearmed, addW_addW, hsum, Nat.add_comm 1 k]

theorem exec_pgRearm_rearmed (h : s.regs.pgpc = .rearm) : exec .pgRearm s = .next (s.rearmed 1 .chk) := by
  rw [exec_pgRearm_of_enabled h, State.rearmed, Nat.one_mul]

/-- One iteration that leaves the loop. -/
theorem execAll_iteration_leaves (h : s.regs.pgpc = .rearm)
    (hahead : 8 < sdiffW s.params.tickW (addW s.params.tickW s.regs.matchReg s.params.toggleTick) s.regs.tickcnt) :
    execAll [.pgRearm, .pgChk] s = .next (s.rearmed 1 .out) := by
  refine execAll_cons_next (exec_pgRearm_rearmed h) (execAll_cons_next (exec_pgChk_of_not_due rfl ?_) rfl)
  simpa [State.rearmed] using hahead

/-- One iteration that stays in the loop. -/
theorem execAll_iteration_stays (h : s.regs.pgpc = .rearm)
    (hdue : sdiffW s.params.tickW (addW s.params.tickW s.regs.matchReg s.params.toggleTick) s.regs.tickcnt ≤ 8) :
    execAll [.pgRearm, .pgChk] s = .next (s.rearmed 1 .rearm) := by
  refine execAll_cons_next (exec_pgRearm_rearmed h) (execAll_cons_next (exec_pgChk_of_due rfl ?_) rfl)
  simpa [State.rearmed] using hdue

/-- The loop is left after the first iteration that puts MATCH more than 8 ticks ahead; `d` is the distance before. -/
theorem execAll_catchUp {d : Int} (hp : s.params.Ok) (h : s.regs.pgpc = .rearm)
    (hd : sdiffW s.params.tickW s.regs.matchReg s.regs.tickcnt = d)
    (hstay : k = 0 ∨ d + k * s.params.toggleTick ≤ 8) (hleave : 8 < d + (k + 1) * s.params.toggleTick)
    (hwrap : d + (k + 1) * s.params.toggleTick < (2 : Int) ^ (s.params.tickW - 1)) :
    execAll (catchUpOps (k + 1)) s = .next (s.rearmed (k + 1) .out) := by
  induction k generalizing s d with
  | zero =>
    simp only [Nat.cast_zero, zero_add, one_mul] at hleave hwrap
    refine execAll_iteration_leaves h ?_
    rwa [sdiffW_addW_left (one_le_tickW hp) (by omega), hd]
  | succ k ih =>
    rw [Nat.cast_succ, Int.add_mul, Int.one_mul] at hstay hleave hwrap
    rw [Int.add_mul, Int.one_mul] at hleave hwrap
    have hnonneg : 0 ≤ (k : Int) * s.params.toggleTick := by positivity
    have hnext : sdiffW s.params.tickW (addW s.params.tickW s.regs.matchReg s.params.toggleTick) s.regs.tickcnt
        = d + s.params.toggleTick := by
      rw [sdiffW_addW_left (one_le_tickW hp) (by omega), hd]
    have hfirst := execAll_iteration_stays h (by omega)
    rw [← s.rearmed_one_rearmed (k + 1) .rearm .out]
    refine (execAll_append_of_next hfirst).trans (ih (s := s.rearmed 1 .rearm) (d := d + s.params.toggleTick) hp rfl ?_
      (.inr ?_) ?_ ?_)
    · simpa [State.rearmed] using hnext
    · change d + s.params.toggleTick + (k : Int) * s.params.toggleTick ≤ 8
      omega
    · change 8 < d + s.params.toggleTick + ((k : Int) + 1) * s.params.toggleTick
      rw [Int.add_mul]
      omega
    · change d + s.params.toggleTick + ((k : Int) + 1) * s.params.toggleTick < _
      rw [Int.add_mul]
      exact lt_of_eq_of_lt (by ring) hwrap

/-! ## One invocation -/

theorem catchUpOps_eq_flatten (k : Nat) : catchUpOps k = (List.replicate k [Instr.pgRearm, .pgChk]).flatten := by
  induction k with
  | zero => rfl
  | succ k ih => rw [catchUpOps, ih, List.replicate_succ, List.flatten_cons, List.cons_append, List.cons_append,
      List.nil_append]

/-- What an invocation of `k` iterations makes of a state with the clock on. -/
def State.served (s : State) (k : Nat) : State :=
  let out := if (s.regs.percnt + k) % 4 = 3 then s.regs.dutyval else 0
  { s with
    regs.mpend := false
    regs.matchReg := addW s.params.tickW s.regs.matchReg (k * s.params.toggleTick)
    regs.percnt := addW s.params.cntW s.regs.percnt k
    regs.pwmduty := out
    regs.pgpc := .idle
    pwmSeq := s.pwmSeq ++ [out] }

/-- An invocation is its loop between PG.ACK and PG.OUT (40_pulse_generator.md R100). -/
theorem execAll_invocation {k : Nat} {loop : List Instr} (hp : s.params.Ok) (hidle : s.regs.pgpc = .idle)
    (hmatch : MatchAsserted s.regs) (hclk : s.regs.clken = true)
    (hloop : execAll loop { s with regs.mpend := false, regs.pgpc := .rearm }
      = .next (State.rearmed { s with regs.mpend := false, regs.pgpc := .rearm } k .out)) :
    execAll (.pgAck :: loop ++ [.pgOut]) s = .next (s.served k) := by
  refine execAll_cons_next (exec_pgAck_of_enabled hidle hmatch) ((execAll_append_of_next hloop).trans ?_)
  refine execAll_cons_next (exec_pgOut_of_clock_on rfl hclk) ?_
  rw [gatedDuty_of_count (c := s.regs.percnt) hp rfl]
  rfl

/-- An invocation that leaves the loop at its first test. -/
theorem execAll_invocation_one (hp : s.params.Ok) (hidle : s.regs.pgpc = .idle) (hmatch : MatchAsserted s.regs)
    (hclk : s.regs.clken = true)
    (hahead : 8 < sdiffW s.params.tickW (addW s.params.tickW s.regs.matchReg s.params.toggleTick) s.regs.tickcnt) :
    execAll [.pgAck, .pgRearm, .pgChk, .pgOut] s = .next (s.served 1) :=
  execAll_invocation (loop := [.pgRearm, .pgChk]) hp hidle hmatch hclk
    (execAll_iteration_leaves (s := { s with regs.mpend := false, regs.pgpc := .rearm }) rfl hahead)

/-- R105's number of iterations is at least one, the last that is needed and the first that is enough. -/
theorem iterations_spec {T : Nat} {d : Int} (hT : 0 < T) (hk : (k : Int) = max 1 ((8 - d) / (T : Int) + 1)) :
    ∃ j : Nat, k = j + 1 ∧ (j = 0 ∨ d + j * T ≤ 8) ∧ 8 < d + (j + 1) * T := by
  have hdiv := Int.mul_ediv_add_emod (8 - d) T
  have hpos : 0 ≤ (8 - d) % (T : Int) := Int.emod_nonneg _ (by omega)
  have hlt : (8 - d) % (T : Int) < T := Int.emod_lt_of_pos _ (by omega)
  obtain hneg | hnonneg := lt_or_ge ((8 - d) / (T : Int)) 0
  · have hdue : ¬0 ≤ 8 - d := fun hle => hneg.not_ge ((Int.ediv_nonneg_iff_of_pos (by omega)).2 hle)
    exact ⟨0, by omega, .inl rfl, by simp; omega⟩
  · obtain ⟨j, hj⟩ := Int.eq_ofNat_of_zero_le hnonneg
    rw [hj, Int.mul_comm] at hdiv
    refine ⟨j, by omega, .inr (by omega), ?_⟩
    rw [Int.add_mul]
    omega

theorem iterations_eq {r : Regs}
    (hk : (k : Int) = max 1 ((8 - sdiffW p.tickW r.matchReg r.tickcnt) / (p.toggleTick : Int) + 1)) :
    iterations p r = k := by
  rw [iterations]
  change max 1 ((8 - sdiffW p.tickW r.matchReg r.tickcnt) / (p.toggleTick : Int) + 1).toNat = k
  omega

/-- Settles O54: R105's number is where the loop is left, and the gate is that of the last count. -/
theorem invocationWithTheTickStandingStill : Obligations.InvocationWithTheTickStandingStill := by
  intro s k hp hidle hpend hien hclk hk hwrap
  have htoggle : 0 < s.params.toggleTick := by
    obtain ⟨-, -, -, -, htoggle, -⟩ := hp
    omega
  obtain ⟨j, rfl, hstay, hleave⟩ := iterations_spec htoggle hk
  have hexpand : Pseudo.irq.expand s = .pgAck :: catchUpOps (j + 1) ++ [.pgOut] := by
    rw [Pseudo.expand, iterations_eq hk, invocationOps]
  have hloop := execAll_catchUp (s := { s with regs.mpend := false, regs.pgpc := .rearm }) (k := j) hp rfl rfl hstay
    hleave (by simpa using hwrap)
  refine ⟨by rw [hexpand, catchUpOps_eq_flatten], ?_, ?_⟩
  · rw [hexpand]
    exact execAll_invocation hp hidle ⟨hpend, hien⟩ hclk hloop
  · rw [sdiffW_addW_left (one_le_tickW hp) (by simpa using hwrap)]
    simpa using hleave

/-! ## Four periods on schedule -/

/-- A period is more than the slack and less than a quarter of the counter's turn (00_scope.md R6). -/
theorem toggleTick_bounds (hp : p.Ok) : 8 < p.toggleTick ∧ 2 * p.toggleTick < 2 ^ (p.tickW - 1) := by
  obtain ⟨-, -, htick, -, hlo, hhi, -⟩ := hp
  have hquarter : 2 * 2 ^ (p.tickW - 2) = 2 ^ (p.tickW - 1) := mul_pow_sub_one (n := p.tickW - 1) (by omega) 2
  exact ⟨hlo, by omega⟩

/-- A started block between two invocations whose next match is one period ahead. -/
structure OnSchedule (s : State) : Prop where
  ok : s.params.Ok
  idle : s.regs.pgpc = .idle
  unmasked : s.regs.mien = true
  clock_on : s.regs.clken = true
  match_ahead : s.regs.matchReg = addW s.params.tickW s.regs.tickcnt s.params.toggleTick

/-- A period of ticks reaches the match that is one period ahead. -/
theorem OnSchedule.reached (h : OnSchedule s) : ticksToMatch s.params s.regs ≤ s.params.toggleTick := by
  have ⟨hlo, hhi⟩ := toggleTick_bounds h.ok
  have hhalf := two_pow_pred (one_le_tickW h.ok)
  refine (ticksToMatch_eq_of_reach (by omega) (by omega) ?_).le
  rw [h.match_ahead, addW, Nat.mod_mod]

/-- So a period of ticks brings TICKCNT to MATCH and asserts the interrupt (43_timer_facilities.md R161). -/
theorem OnSchedule.exec_adv (h : OnSchedule s) : exec (.adv s.params.toggleTick) s
    = .next { s with regs.tickcnt := s.regs.matchReg, regs.mpend := true } := by
  rw [Machine.exec_adv, h.match_ahead, h.unmasked]
  simp [h.reached]

/-- One period of ticks, then the invocation its match starts, of one iteration. -/
def servedPeriod (p : Config.Params) : List Instr := [.adv p.toggleTick, .pgAck, .pgRearm, .pgChk, .pgOut]

/-- The state a served period leaves. -/
def State.afterServedPeriod (s : State) : State :=
  State.served { s with regs.tickcnt := s.regs.matchReg, regs.mpend := true } 1

theorem OnSchedule.execAll_servedPeriod (h : OnSchedule s) :
    execAll (servedPeriod s.params) s = .next s.afterServedPeriod := by
  obtain ⟨hlo, hhi⟩ := toggleTick_bounds h.ok
  zify at hhi
  have hahead :
      8 < sdiffW s.params.tickW (addW s.params.tickW s.regs.matchReg s.params.toggleTick) s.regs.matchReg := by
    have hself := sdiffW_self s.params.tickW s.regs.matchReg
    rw [sdiffW_addW_left (one_le_tickW h.ok) (by omega)]
    omega
  have hserved := execAll_invocation_one (s := { s with regs.tickcnt := s.regs.matchReg, regs.mpend := true }) h.ok
    h.idle ⟨rfl, h.unmasked⟩ h.clock_on hahead
  exact execAll_cons_next h.exec_adv hserved

theorem OnSchedule.afterServedPeriod (h : OnSchedule s) : OnSchedule s.afterServedPeriod where
  ok := h.ok
  idle := rfl
  unmasked := h.unmasked
  clock_on := h.clock_on
  match_ahead := by simp [State.afterServedPeriod, State.served]

/-- `k + 1` periods in a row: each count is gated by its own phase. -/
theorem OnSchedule.execAll_servedPeriods (h : OnSchedule s) (k : Nat) :
    ∃ t, execAll (List.replicate (k + 1) (servedPeriod s.params)).flatten s = .next t ∧
      OnSchedule t ∧ t.params = s.params ∧ t.regs.dutyval = s.regs.dutyval ∧
      t.regs.percnt = addW s.params.cntW s.regs.percnt (k + 1) ∧
      t.pwmSeq = s.pwmSeq ++
        (List.range (k + 1)).map fun n => if (s.regs.percnt + n + 1) % 4 = 3 then s.regs.dutyval else 0 := by
  induction k with
  | zero =>
    exact ⟨_, by simpa using h.execAll_servedPeriod, h.afterServedPeriod, rfl, rfl, rfl, rfl⟩
  | succ k ih =>
    obtain ⟨t, hrun, hsched, hparams, hduty, hcount, hseq⟩ := ih
    refine ⟨t.afterServedPeriod, ?_, hsched.afterServedPeriod, hparams, hduty, ?_, ?_⟩
    · rw [List.replicate_succ', List.flatten_append, execAll_append_of_next hrun, ← hparams]
      simpa using hsched.execAll_servedPeriod
    · simp [State.afterServedPeriod, State.served, hparams, hcount, addW_addW, Nat.add_assoc]
    · have hphase : (t.regs.percnt + 1) % 4 = (s.regs.percnt + (k + 1) + 1) % 4 := by
        rw [hcount, ← Nat.mod_add_mod, addW_mod_four _ _ (two_le_cntW h.ok), Nat.mod_add_mod]
      rw [List.range_succ, List.map_append, ← List.append_assoc, ← hseq, ← hduty]
      simp only [List.map_cons, List.map_nil, ← hphase]
      rfl

/-- Settles O56: of four counts in a row exactly one has phase 3. -/
theorem fourPeriodsEmitOnePulse : Obligations.FourPeriodsEmitOnePulse := by
  intro s hp hidle hien hclk hmatch
  have h : OnSchedule s := ⟨hp, hidle, hien, hclk, hmatch⟩
  obtain ⟨t, hrun, hsched, hparams, hduty, hcount, hseq⟩ := h.execAll_servedPeriods 3
  refine ⟨t, (6 - s.regs.percnt % 4) % 4, hrun, by omega, by omega, hseq.trans ?_, ?_, hcount, hduty⟩
  · refine congrArg (s.pwmSeq ++ ·) (List.map_congr_left fun n hn => ?_)
    have hlt : n < 4 := List.mem_range.1 hn
    have hphase : (s.regs.percnt + n + 1) % 4 = 3 ↔ n = (6 - s.regs.percnt % 4) % 4 := by omega
    simp only [hphase]
  · rw [← hparams]
    exact hsched.match_ahead

/-! ## An invocation beside a sweep tick -/

/-- Settles O57: the two orders write the same registers but for the value the gate lets through. -/
theorem orderOfTheTriggersShowsOnlyInTheOutput : Obligations.OrderOfTheTriggersShowsOnlyInTheOutput := by
  intro s hp hpg hsc hpend hien hclk harm hdue hahead
  have hupd : exec .scUpd s = .next s.updated := exec_scUpd_of_enabled hsc hpg ⟨harm, hdue⟩
  have hinv := execAll_invocation_one hp hpg ⟨hpend, hien⟩ hclk hahead
  have hupd' : exec .scUpd (s.served 1) = .next (s.served 1).updated := exec_scUpd_of_enabled hsc rfl ⟨harm, hdue⟩
  have hinv' := execAll_invocation_one (s := s.updated) hp hpg ⟨hpend, hien⟩ hclk hahead
  refine ⟨(s.updated.served 1).tickEnded, (s.served 1).updated.tickEnded, ?_, ?_, rfl, rfl, rfl⟩
  · exact execAll_cons_next hupd ((execAll_append_of_next hinv').trans (execAll_scBnd_scArm rfl rfl))
  · exact (execAll_append_of_next hinv).trans (execAll_cons_next hupd' (execAll_scBnd_scArm rfl rfl))

end Sys2Proof.Machine
end

