-- ==== Sys2Proof/Proofs/CatchUp.lean ====
section
/-! PROOFS. The catch-up loop under ENV_LOOP: with fewer than TOGGLE_TICK ticks from test to test every iteration gains
on TICKCNT (40_pulse_generator.md section 3, 43_timer_facilities.md R168). -/
namespace Sys2Proof.Machine
variable {s t : State} {p : Config.Params}

/-! ## Ticks between the operations -/

/-- `n` ticks later: the generator and MATCH as before, TICKCNT `n` further up to whole turns. -/
structure Later (s t : State) (n : Nat) : Prop where
  params : t.params = s.params
  pgpc : t.regs.pgpc = s.regs.pgpc
  matchReg : t.regs.matchReg = s.regs.matchReg
  tickcnt : (2 : Int) ^ s.params.tickW ∣ ((s.regs.tickcnt : Int) + n) - (t.regs.tickcnt : Int)

/-- However an advance is written, no word for no tick included (30_encoding.md R82). -/
theorem execAll_advOps (n : Nat) (s : State) : ∃ t, execAll (advOps n) s = .next t ∧ Later s t n := by
  unfold advOps
  split
  · next hzero => exact ⟨s, rfl, rfl, rfl, rfl, by simp [hzero]⟩
  · exact ⟨_, (execAll_singleton _ _).trans (exec_adv n s), rfl, rfl, rfl, two_pow_dvd_sub_addW _ _ _⟩

/-! ## One iteration -/

/-- The operations of one iteration with its ticks. -/
def gapOps (g : Nat × Nat) : List Instr := advOps g.1 ++ .pgRearm :: advOps g.2 ++ [.pgChk]

theorem loopOps_cons (g : Nat × Nat) (gs : List (Nat × Nat)) : loopOps (g :: gs) = gapOps g ++ loopOps gs := by
  obtain ⟨a, b⟩ := g
  simp [loopOps, gapOps]

/-- The distance one iteration on: one period more, less the ticks that fall in it. -/
def distanceAfter (s : State) (g : Nat × Nat) : Int :=
  sdiffW s.params.tickW s.regs.matchReg s.regs.tickcnt + s.params.toggleTick - (g.1 + g.2 : Nat)

/-- Under ENV_LOOP an iteration gains at least one tick, and at most a period. -/
theorem distanceAfter_bounds {g : Nat × Nat} (h : g.1 + g.2 < s.params.toggleTick) :
    sdiffW s.params.tickW s.regs.matchReg s.regs.tickcnt < distanceAfter s g ∧
      distanceAfter s g ≤ sdiffW s.params.tickW s.regs.matchReg s.regs.tickcnt + s.params.toggleTick := by
  unfold distanceAfter
  omega

/-- An iteration puts MATCH at that distance, and then tests it. -/
theorem execAll_gapOps {g : Nat × Nat} (hp : s.params.Ok) (h : s.regs.pgpc = .rearm)
    (hlo : -(2 : Int) ^ (s.params.tickW - 1) ≤ distanceAfter s g)
    (hhi : distanceAfter s g < (2 : Int) ^ (s.params.tickW - 1)) :
    ∃ t, execAll (gapOps g) s = .next t ∧ t.params = s.params ∧
      sdiffW s.params.tickW t.regs.matchReg t.regs.tickcnt = distanceAfter s g ∧
      t.regs.pgpc = if distanceAfter s g ≤ 8 then .rearm else .out := by
  obtain ⟨a, b⟩ := g
  obtain ⟨u, hrun, hu⟩ := execAll_advOps a s
  have hrearm := exec_pgRearm_of_enabled (hu.pgpc.trans h)
  obtain ⟨v, hrun', hv⟩ := execAll_advOps b { u with
    regs.matchReg := addW u.params.tickW u.regs.matchReg u.params.toggleTick
    regs.percnt := addW u.params.cntW u.regs.percnt 1
    regs.pgpc := .chk }
  have hparams : v.params = s.params := hv.params.trans hu.params
  have hmatch : v.regs.matchReg = addW s.params.tickW s.regs.matchReg s.params.toggleTick := by
    rw [hv.matchReg, hu.params, hu.matchReg]
  have hticks : (2 : Int) ^ s.params.tickW ∣ ((s.regs.tickcnt : Int) + (a + b : Nat)) - (v.regs.tickcnt : Int) := by
    have hfirst := hu.tickcnt
    have hsecond := hv.tickcnt
    simp only [hu.params] at hsecond
    convert Int.dvd_add hfirst hsecond using 1
    push_cast
    ring
  have hdist : sdiffW s.params.tickW v.regs.matchReg v.regs.tickcnt = distanceAfter s (a, b) := by
    rw [hmatch]
    exact sdiffW_addW_moved (one_le_tickW hp) hticks hlo hhi
  have hfront := (execAll_append_of_next hrun).trans (execAll_cons_next hrearm hrun')
  have hdue : DueWithinSlack v.params v.regs ↔ distanceAfter s (a, b) ≤ 8 := by
    rw [← hdist, ← hparams]
    rfl
  obtain hle | hgt := le_or_gt (distanceAfter s (a, b)) 8
  · have hchk := exec_pgChk_of_due hv.pgpc (hdue.2 hle)
    exact ⟨_, (execAll_append_of_next hfront).trans (execAll_cons_next hchk rfl), hparams, hdist, by simp [hle]⟩
  · have hchk := exec_pgChk_of_not_due hv.pgpc (fun hle => hgt.not_ge (hdue.1 hle))
    exact ⟨_, (execAll_append_of_next hfront).trans (execAll_cons_next hchk rfl), hparams, hdist, by simp [hgt.not_ge]⟩

/-! ## The loop -/

/-- Settles O55: while the loop is not left the distance grows by at least one an iteration. -/
theorem catchUpLoopEndsUnderEnvLoop : Obligations.CatchUpLoopEndsUnderEnvLoop := by
  intro s gaps hp h hgaps hne hlen hwrap
  induction gaps generalizing s with
  | nil => exact absurd rfl hne
  | cons g gs ih =>
    obtain ⟨hslack, hhalf⟩ := toggleTick_bounds hp
    obtain ⟨hlo, -⟩ := sdiffW_bounds (one_le_tickW hp) s.regs.matchReg s.regs.tickcnt
    have hgap : g.1 + g.2 < s.params.toggleTick := hgaps g (by simp)
    obtain ⟨hgain, hmost⟩ := distanceAfter_bounds hgap
    zify at hhalf
    rw [List.length_cons] at hlen
    obtain ⟨t, hrun, hparams, hdist, hphase⟩ := execAll_gapOps (g := g) hp h (by omega) (by omega)
    rw [← hparams] at hdist
    obtain hdue | hleave := le_or_gt (distanceAfter s g) 8
    · rw [if_pos hdue] at hphase
      have hlen' : 8 - distanceAfter s g < gs.length := by omega
      obtain ⟨n, u, hn, hall, hout, hahead⟩ := ih t (hparams.symm ▸ hp) hphase
        (fun g' hg' => hparams.symm ▸ hgaps g' (by simp [hg'])) (by rintro rfl; simp at hlen'; omega) (by rwa [hdist])
        (by rw [hdist, hparams]; omega)
      refine ⟨n + 1, u, by simpa using hn, ?_, hout, hahead⟩
      rw [List.take_succ_cons, loopOps_cons, execAll_append_of_next hrun, hall]
    · rw [if_neg hleave.not_ge] at hphase
      refine ⟨1, t, by simp, ?_, hphase, hdist ▸ hleave⟩
      rw [List.take_succ_cons, List.take_zero, loopOps_cons, execAll_append_of_next hrun]
      rfl

end Sys2Proof.Machine
end

