-- ==== Sys2Proof/Proofs/TextForm.lean ====
section
/-! PROOFS. The text form reads decimal operands back (30_encoding.md R87). -/
namespace Sys2Proof.Machine
variable {c : Char} {cs m acc : List Char} {n v : Nat}

/-! ## Digits -/

theorem digitValue_of_isDigit (h : c.isDigit = true) : digitValue 10 c = some (c.toNat - 48) :=
  if_pos (Char.isDigit_iff_toNat.1 h)

theorem ne_of_isDigit {d : Char} (h : c.isDigit = true) (hd : d.isDigit = false) : c ≠ d := by
  rintro rfl
  simp [h] at hd

theorem isBlankChar_of_isDigit (h : c.isDigit = true) : isBlankChar c = false := by
  simp [isBlankChar, ne_of_isDigit h (d := ' ') (by decide), ne_of_isDigit h (d := '\t') (by decide),
    ne_of_isDigit h (d := '\r') (by decide)]

/-- A numeral of decimal digits has the value the library gives its digits. -/
theorem numeralValue_of_digits (h : ∀ c ∈ cs, c.isDigit = true) :
    numeralValue 10 cs v = some (Nat.ofDigitChars 10 cs v) := by
  induction cs generalizing v with
  | nil => rfl
  | cons c cs ih =>
    rw [numeralValue, digitValue_of_isDigit (h c (by simp)), Nat.ofDigitChars_cons, Nat.mul_comm 10]
    exact ih fun c' hc' => h c' (by simp [hc'])

/-- Digits hold no `x`, so they are read in base 10. -/
theorem parseOperand_of_digits (h : ∀ c ∈ cs, c.isDigit = true) (hne : cs ≠ []) :
    parseOperand cs = numeralValue 10 cs 0 := by
  have hx : 'x' ∉ cs := fun hmem => by simpa using h 'x' hmem
  unfold parseOperand
  split <;> simp_all

theorem isDigit_of_mem_decimal (h : c ∈ Nat.toDigits 10 n) : c.isDigit = true :=
  Nat.isDigit_of_mem_toDigits (by decide) (by decide) h

theorem parseOperand_toDigits (n : Nat) : parseOperand (Nat.toDigits 10 n) = some n := by
  rw [parseOperand_of_digits (fun _ => isDigit_of_mem_decimal) Nat.toDigits_ne_nil,
    numeralValue_of_digits (fun _ => isDigit_of_mem_decimal), Nat.ofDigitChars_toDigits (by decide) (by decide)]

/-! ## The words of a line -/

/-- Characters that are no blank are gathered. -/
theorem lineWords_gather (h : ∀ c ∈ m, isBlankChar c = false) :
    lineWords acc (m ++ cs) = lineWords (m.reverse ++ acc) cs := by
  induction m generalizing acc with
  | nil => rfl
  | cons c m ih =>
    rw [List.cons_append, lineWords, h c (by simp), if_neg Bool.false_ne_true, ih fun c' hc' => h c' (by simp [hc'])]
    simp

/-- A word, a space and a word without blanks are two words. -/
theorem lineWords_two (hm : ∀ c ∈ m, isBlankChar c = false) (hcs : ∀ c ∈ cs, isBlankChar c = false) (hm' : m ≠ [])
    (hcs' : cs ≠ []) : lineWords [] (m ++ ' ' :: cs) = [m, cs] := by
  have hsecond : lineWords [] cs = [cs] := by
    rw [← List.append_nil cs, lineWords_gather hcs]
    simp [lineWords, hcs']
  rw [lineWords_gather hm, lineWords, if_pos (by decide), hsecond]
  simp [hm']

/-! ## A mnemonic with a decimal operand -/

theorem parseLine_decimal {x : Item} (hm : ∀ c ∈ m, isBlankChar c = false ∧ c ≠ ';') (hne : m ≠ [])
    (hitem : operandItem m n = some x) (hwf : x.wellFormed = true) :
    parseLine (m ++ ' ' :: Nat.toDigits 10 n) = .item x := by
  have hdigit : ∀ c ∈ Nat.toDigits 10 n, c.isDigit = true := fun _ => isDigit_of_mem_decimal
  have hcomment : dropComment (m ++ ' ' :: Nat.toDigits 10 n) = m ++ ' ' :: Nat.toDigits 10 n := by
    refine List.takeWhile_eq_self_iff.2 fun c hc => bne_iff_ne.2 ?_
    obtain hc | rfl | hc := by simpa using hc
    · exact (hm c hc).2
    · decide
    · exact ne_of_isDigit (hdigit c hc) (by decide)
  have hwords := lineWords_two (fun c hc => (hm c hc).1) (fun c hc => isBlankChar_of_isDigit (hdigit c hc)) hne
    (Nat.toDigits_ne_nil (n := n) (b := 10))
  simp [parseLine, hcomment, hwords, parseOperand_toDigits, hitem, hwf]

/-- Settles O58: the three mnemonics have no blank and no semicolon; the written lines are read off. -/
theorem textFormReadsOperands : Obligations.TextFormReadsOperands := by
  refine ⟨fun n hpos hlt => ⟨?_, ?_⟩, fun n hlt => ?_, by decide, by decide, by decide, by decide, by decide⟩
  · exact parseLine_decimal (m := ['A', 'D', 'V']) (by simp [isBlankChar]) (by simp) rfl
      (by simp only [Item.wellFormed, Instr.wellFormed, hpos, hlt, decide_true, Bool.and_self])
  · exact parseLine_decimal (m := ['M', 'S', 'A', 'D', 'V']) (by simp [isBlankChar]) (by simp) rfl
      (by simp only [Item.wellFormed, Instr.wellFormed, hpos, hlt, decide_true, Bool.and_self])
  · exact parseLine_decimal (m := ['R', 'B', '.', 'W', 'R', 'I', 'T', 'E']) (by simp [isBlankChar]) (by simp) rfl
      (by simp only [Item.wellFormed, Instr.wellFormed, hlt, decide_true])

end Sys2Proof.Machine
end
